-- ==== Sys2Proof/Word.lean ====
section
/-! DEFINITION. The word types of the machine (00_scope.md section 5, R4, R5). -/

namespace Sys2Proof

/-- A byte: 8 bits, an unsigned integer in `[0, 255]` (00_scope.md section 5; PRESUMED by the spec, GK2, log 30). -/
abbrev Byte := BitVec 8

/-- The value of one Memory cell: exactly 32 bits, unsigned (10_state.md R18; D14, log 2). -/
abbrev Word := BitVec 32

/-- A Binary Record seen as one 88-bit value, `rec.bits[87:0]`: byte `i` is `rec.bits[8i+7 : 8i]`, byte 0 the least
significant one (00_scope.md section 5; 10_state.md R17). Every value of the type is a record. -/
abbrev Record := BitVec 88

end Sys2Proof
end

