-- ==== Sys2Proof/Config.lean ====
section
/-! DEFINITION. The fixed constants of codec and environment (00_scope.md R4, R5). None is configurable. The one OPEN
parameter of the spec, `XIN` (D3), is no constant here: it is the width argument of `ENCBus` in Decode.lean (log 9). There
is no free value: no rule of the spec leaves one (93_implementation_defined.md, end of part 1). -/

namespace Sys2Proof

/-- `REC_BYTES` (R4): the length of a record in bytes. -/
abbrev Config.recBytes : Nat := 11

/-- `REC_BITS` (R4): the length of a record in bits, the sum 4 + 28 + 32 + 24 of the field widths. -/
abbrev Config.recBits : Nat := 88

/-- `MEM_CELLS` (R5): the number of cells of Memory; addresses 0 to 1023. -/
abbrev Config.memCells : Nat := 1024

end Sys2Proof
end

