-- ==== Sys2Proof/Syntax.lean ====
section
/-! DEFINITION. The syntax: the four fields of an Instruction, and one constructor per row of spec/opcode_table.json. -/

namespace Sys2Proof

/-- The four fields of an Instruction in their exact ranges: what `DEC` returns (10_state.md R16; widths 00_scope.md R4). -/
structure Fields where
  /-- The opcode selector. -/
  a : BitVec 4
  /-- The first operand: the destination address, or its base. -/
  b : BitVec 28
  /-- The second operand: a literal, a source address, or a literal index. -/
  c : BitVec 32
  /-- The third operand: a source address. -/
  d : BitVec 24
  deriving DecidableEq, Repr

/-- One constructor per row of spec/opcode_table.json.

The sixteen UVM instructions carry B, C and D as decoded, the fields they do not use among them: a record's unused fields
are no part of the effect but are carried unchanged (30_encoding.md R44). `enc` and `dec` are the two codec operations, which
no bit of a record selects (the table's note on them; D2, log 4). -/
inductive Instr where
  /-- `NOP0`, A = 0 (43_uvm_opcodes.md R97). -/
  | nop0 (b : BitVec 28) (c : BitVec 32) (d : BitVec 24)
  /-- `NOP1`, A = 1 (R97). -/
  | nop1 (b : BitVec 28) (c : BitVec 32) (d : BitVec 24)
  /-- `NOP2`, A = 2 (R97). -/
  | nop2 (b : BitVec 28) (c : BitVec 32) (d : BitVec 24)
  /-- `STX`, A = 3, indexed store (R95). -/
  | stx (b : BitVec 28) (c : BitVec 32) (d : BitVec 24)
  /-- `NOP4`, A = 4 (R97). -/
  | nop4 (b : BitVec 28) (c : BitVec 32) (d : BitVec 24)
  /-- `STI`, A = 5, immediate store (R93). -/
  | sti (b : BitVec 28) (c : BitVec 32) (d : BitVec 24)
  /-- `NOP6`, A = 6 (R97). -/
  | nop6 (b : BitVec 28) (c : BitVec 32) (d : BitVec 24)
  /-- `CPY`, A = 7, indirect copy (R94). -/
  | cpy (b : BitVec 28) (c : BitVec 32) (d : BitVec 24)
  /-- `NOP8`, A = 8 (R97). -/
  | nop8 (b : BitVec 28) (c : BitVec 32) (d : BitVec 24)
  /-- `XOR`, A = 9, bitwise combine (R96). -/
  | xor (b : BitVec 28) (c : BitVec 32) (d : BitVec 24)
  /-- `NOP10`, A = 10 (R97). -/
  | nop10 (b : BitVec 28) (c : BitVec 32) (d : BitVec 24)
  /-- `NOP11`, A = 11 (R97). -/
  | nop11 (b : BitVec 28) (c : BitVec 32) (d : BitVec 24)
  /-- `NOP12`, A = 12 (R97). -/
  | nop12 (b : BitVec 28) (c : BitVec 32) (d : BitVec 24)
  /-- `NOP13`, A = 13 (R97). -/
  | nop13 (b : BitVec 28) (c : BitVec 32) (d : BitVec 24)
  /-- `NOP14`, A = 14 (R97). -/
  | nop14 (b : BitVec 28) (c : BitVec 32) (d : BitVec 24)
  /-- `NOP15`, A = 15 (R97). -/
  | nop15 (b : BitVec 28) (c : BitVec 32) (d : BitVec 24)
  /-- `ENC` (40_encode.md R60): four integers of any size and sign. -/
  | enc (a b c d : Int)
  /-- `DEC` (41_decode.md R70), at its length-checking entry `DEC_SEQ` (R73): a byte sequence of any length. -/
  | dec (seq : List Byte)
  deriving DecidableEq, Repr

/-- Why the decoder rejects a byte sequence: the one error of the codec (41_decode.md R73). -/
inductive DecodeReject where
  /-- The sequence has `len` bytes, and `len` is not 11. Raised by `decodeBytes`; safe: the spec names the error (R111). -/
  | formatError (len : Nat)
  deriving DecidableEq, Repr

end Sys2Proof
end

