-- ==== Sys2Proof/WellFormed.lean ====
section
/-! DEFINITION. Which terms of `Instr` are well formed. The widths of B, C and D are in the types, so a UVM instruction is
always well formed; what is left to check is the length of `DEC`'s operand and which terms stand in an image. -/

namespace Sys2Proof

/-- The operand of a codec operation has the form its rule asks for: `ENC` takes any four integers (40_encode.md R61, R64);
`DEC` takes a record, "exactly 11 bytes" (41_decode.md R70). A `dec` of another length still has a meaning, `FormatError`
(R73). -/
def Instr.wf : Instr → Bool
  | .nop0 _ _ _ => true
  | .nop1 _ _ _ => true
  | .nop2 _ _ _ => true
  | .stx _ _ _ => true
  | .nop4 _ _ _ => true
  | .sti _ _ _ => true
  | .nop6 _ _ _ => true
  | .cpy _ _ _ => true
  | .nop8 _ _ _ => true
  | .xor _ _ _ => true
  | .nop10 _ _ _ => true
  | .nop11 _ _ _ => true
  | .nop12 _ _ _ => true
  | .nop13 _ _ _ => true
  | .nop14 _ _ _ => true
  | .nop15 _ _ _ => true
  | .enc _ _ _ _ => true
  | .dec seq => seq.length == Config.recBytes

/-- The instruction stands in a program image: it is one of the sixteen UVM instructions and so has a record. The codec
operations have none (spec/opcode_table.json, rows `ENC` and `DEC`: "Not an instruction word"). -/
def Instr.inImage : Instr → Bool
  | .nop0 _ _ _ => true
  | .nop1 _ _ _ => true
  | .nop2 _ _ _ => true
  | .stx _ _ _ => true
  | .nop4 _ _ _ => true
  | .sti _ _ _ => true
  | .nop6 _ _ _ => true
  | .cpy _ _ _ => true
  | .nop8 _ _ _ => true
  | .xor _ _ _ => true
  | .nop10 _ _ _ => true
  | .nop11 _ _ _ => true
  | .nop12 _ _ _ => true
  | .nop13 _ _ _ => true
  | .nop14 _ _ _ => true
  | .nop15 _ _ _ => true
  | .enc _ _ _ _ => false
  | .dec _ => false

end Sys2Proof
end

