-- ==== Sys2Proof/Decode.lean ====
section
/-! DEFINITION. The record layout, the codec's `ENC` and `DEC`, the decoder from bytes to instructions, and the encoder. -/

namespace Sys2Proof

/-! ## The record as bytes (00_scope.md section 5; 20_memory.md R21, R22) -/

/-- `Σ byte[i] × 2^(8i)`: the integer a byte sequence stands for, byte 0 least significant. -/
def leNat : List Byte → Nat
  | [] => 0
  | y :: ys => y.toNat + 256 * leNat ys

/-- `rec.byte[i] = rec.bits[8i+7 : 8i]`. -/
def recByte (r : Record) (i : Nat) : Byte := r.extractLsb' (8 * i) 8

/-- The 11 bytes of a record, byte 0 first (R22). -/
def recBytes (r : Record) : List Byte :=
  [recByte r 0, recByte r 1, recByte r 2, recByte r 3, recByte r 4, recByte r 5, recByte r 6, recByte r 7, recByte r 8,
    recByte r 9, recByte r 10]

/-- The record of 11 bytes: `R(rec)` as an 88-bit value. -/
def recOfBytes (ys : List Byte) : Record := BitVec.ofNat 88 (leNat ys)

/-! ## The codec -/

/-- `trunc_N(v) = v mod 2^N`, with the non-negative remainder (00_scope.md section 5; 40_encode.md R61; for a negative
operand R62, D4, log 10). -/
def trunc (n : Nat) (v : Int) : BitVec n := BitVec.ofInt n v

/-- The layout: A in bits 3:0, B in 31:4, C in 63:32, D in 87:64 (30_encoding.md R35, R36; B's nibble is D5, log 11). -/
def pack (f : Fields) : Record := f.d ++ f.c ++ f.b ++ f.a

/-- `ENC` (40_encode.md R60): every operand is cut to its width before it is laid into place (R61). -/
def ENC (a b c d : Int) : Record := pack { a := trunc 4 a, b := trunc 28 b, c := trunc 32 c, d := trunc 24 d }

/-- `ENC` with its operands on four buses of `xin` bits, read as unsigned (R63; the parameter `XIN` of D3, log 9). -/
def ENCBus (xin : Nat) (a b c d : BitVec xin) : Record := ENC a.toNat b.toNat c.toNat d.toNat

/-- `DEC` (41_decode.md R70), total on records (R71); as wiring it is R74's four outputs. -/
def DEC (r : Record) : Fields :=
  { a := r.extractLsb' 0 4, b := r.extractLsb' 4 28, c := r.extractLsb' 32 32, d := r.extractLsb' 64 24 }

/-- `DEC_SEQ` (R73): a byte sequence of another length than 11 is rejected, never padded and never cut. -/
def decSeq (seq : List Byte) : Except DecodeReject Fields :=
  if seq.length = Config.recBytes then .ok (DEC (recOfBytes seq)) else .error (.formatError seq.length)

/-! ## Selecting an instruction (30_encoding.md R42, R43) -/

/-- The opcode map, in the order of A: entry `a` is the instruction that A = `a` selects. It is total over the 16 values. -/
def opcodeMap : List (BitVec 28 → BitVec 32 → BitVec 24 → Instr) :=
  [.nop0, .nop1, .nop2, .stx, .nop4, .sti, .nop6, .cpy, .nop8, .xor, .nop10, .nop11, .nop12, .nop13, .nop14, .nop15]

/-- The instruction of four fields: A alone selects, B, C and D are carried (R42). -/
def select (f : Fields) : Instr := (opcodeMap[f.a.toNat]'f.a.isLt) f.b f.c f.d

/-- The instruction a record stands for: total, no record is illegal (R43, R71). -/
def decode (r : Record) : Instr := select (DEC r)

/-- The decoder on any byte sequence: rejects by name what is no record (R73). -/
def decodeBytes (seq : List Byte) : Except DecodeReject Instr :=
  match decSeq seq with
  | .ok f => .ok (select f)
  | .error e => .error e

/-! ## The encoder -/

/-- The four fields of a UVM instruction; a codec operation has none. -/
def Instr.fields : Instr → Option Fields
  | .nop0 b c d => some { a := 0, b := b, c := c, d := d }
  | .nop1 b c d => some { a := 1, b := b, c := c, d := d }
  | .nop2 b c d => some { a := 2, b := b, c := c, d := d }
  | .stx b c d => some { a := 3, b := b, c := c, d := d }
  | .nop4 b c d => some { a := 4, b := b, c := c, d := d }
  | .sti b c d => some { a := 5, b := b, c := c, d := d }
  | .nop6 b c d => some { a := 6, b := b, c := c, d := d }
  | .cpy b c d => some { a := 7, b := b, c := c, d := d }
  | .nop8 b c d => some { a := 8, b := b, c := c, d := d }
  | .xor b c d => some { a := 9, b := b, c := c, d := d }
  | .nop10 b c d => some { a := 10, b := b, c := c, d := d }
  | .nop11 b c d => some { a := 11, b := b, c := c, d := d }
  | .nop12 b c d => some { a := 12, b := b, c := c, d := d }
  | .nop13 b c d => some { a := 13, b := b, c := c, d := d }
  | .nop14 b c d => some { a := 14, b := b, c := c, d := d }
  | .nop15 b c d => some { a := 15, b := b, c := c, d := d }
  | .enc _ _ _ _ => none
  | .dec _ => none

/-- The record of a UVM instruction (R37, R42). -/
def encode (i : Instr) : Option Record := i.fields.map pack

/-! ## The opcode table's numbering of bits -/

/-- The record whose bits are `w` as spec/opcode_table.json numbers them, every bit from `nbits` on zero: the table's bit 0
is `rec.bits[0]` (its "match" and "mask" are "over R(rec)"). -/
def tableRecord (nbits w : Nat) : Record := BitVec.ofNat 88 (w % 2 ^ nbits)

/-- The instruction the decoder reads from the bytes of such a record, laid out byte 0 first; none for more bits than a
record has, which is no record. -/
def decodeTableWord (nbits w : Nat) : Option Instr :=
  if nbits ≤ Config.recBits then
    match decodeBytes (recBytes (tableRecord nbits w)) with
    | .ok i => some i
    | .error _ => none
  else none

end Sys2Proof
end

