-- ==== Sys2Proof/Machine/State.lean ====
section
/-! DEFINITION. The state of the machine as plain data, its four error kinds, and the state after reset. -/

namespace Sys2Proof.Machine

/-- The interpreter's Memory (10_state.md R18): 1024 cells of 32 bits, as the list of the cells that are not 0, addresses
strictly rising (`Memory.wf` in Ops.lean). An unlisted cell reads 0, the spec's zero fill. The unit is the cell and not the
byte, because a cell has no byte order and is only accessed whole (20_memory.md R23, R26; log 1). -/
abbrev Memory := List (Nat × Word)

/-- A text line of the assembler: its characters (42_image_framing.md R80; log 27). -/
abbrev Line := List Char

/-- An entry of the diagnostic trace (30_encoding.md R55): the parsed integers before truncation (D18, log 18), and the
11 bytes `ENC` returned. -/
structure TraceEntry where
  a : Int
  b : Int
  c : Int
  d : Int
  encodedBytes : Record
  deriving DecidableEq, Repr

/-- What the host can ask for (70_reset_and_hazards.md R133; log 5). -/
inductive Request where
  /-- A bare codec call `ENC(a, b, c, d)`: four integers. -/
  | encode (a b c d : Int)
  /-- A bare codec call `DEC_SEQ(seq)`. -/
  | decode (seq : List Byte)
  /-- An assembly: the sequence of lines. -/
  | assemble (lines : List Line)
  /-- An interpretation: "a program image and an address range start:end (both required". -/
  | interpret (image : List Byte) (rangeStart rangeEnd : Int)
  deriving DecidableEq, Repr

/-- What an operation hands to the host when it ends normally (log 5). -/
inductive Output where
  /-- The result of `ENC` (40_encode.md R60). -/
  | record (r : Record)
  /-- The result of `DEC_SEQ` (41_decode.md R70). -/
  | fields (f : Fields)
  /-- The result of an assembly (42_image_framing.md R80). -/
  | assembled (image : List Byte) (trace : List TraceEntry)
  /-- The result of an interpretation: the report slice (43_uvm_opcodes.md R104). -/
  | report (pairs : List (Nat × Word))
  deriving DecidableEq, Repr

/-- Which operation runs. A codec call is finished in the step that starts it, so it is no case of its own. -/
inductive Activity where
  /-- No operation runs. -/
  | idle
  /-- `assembleProgram` is between two lines. -/
  | assembling
  /-- `execute` is between two chunks, or before the report. -/
  | interpreting
  deriving DecidableEq, Repr

/-- Everything the spec gives the machine (INVENTORY.md, State). The codec itself has no state (10_state.md R10), and there
are no registers, flags, modes or control registers (R11 to R15). -/
structure State where
  /-- The interpreter's Memory (R18). -/
  memory : Memory
  /-- The index of the chunk the interpreter is at (R12). -/
  k : Nat
  /-- The program image of the run, which no instruction can write (20_memory.md R31). -/
  image : List Byte
  /-- The first address of the report (43_uvm_opcodes.md R104). -/
  rangeStart : Int
  /-- The address after the last one of the report (R104). -/
  rangeEnd : Int
  /-- The lines the assembly has not examined yet (42_image_framing.md R80). -/
  lines : List Line
  /-- The number of the first of `lines`, counted from 1, blank lines included (R80; D19, log 19). -/
  lineNo : Nat
  /-- The image under construction (10_state.md R19). -/
  asmImage : List Byte
  /-- The trace under construction (R19). -/
  asmTrace : List TraceEntry
  /-- Which operation runs. -/
  activity : Activity
  /-- MODEL'S OWN: the host's requests that are not started yet, oldest first (log 5). -/
  requests : List Request
  /-- MODEL'S OWN: the results handed to the host, oldest first (log 5). -/
  outputs : List Output
  deriving DecidableEq, Repr

/-- The four error kinds, one closed type (60_exceptions.md R110, R115). An error ends the operation with the error and
nothing else (R117); it is the outcome of the step and not a field of the state (10_state.md R14; log 8). -/
inductive Fault where
  /-- A byte sequence of `len` bytes, not 11, given to the codec (R111; payload D11, log 12). Raised by `execDec`; safe:
  the spec names the error. -/
  | formatError (len : Nat)
  /-- The instruction of chunk `k` forms an address outside `[0, 1024)` (R112; payload D13, log 13). Raised by `memRead` and
  `memWrite`, so by STX, STI, CPY and XOR; safe: the spec names the error. -/
  | memoryFault (k : Nat)
  /-- Line `line` is malformed (R113; line number D19, log 19). Raised by `assembleLine`; safe: the spec names the error
  (where D16, D17, D22 make the grammar narrower than another assembler's, the model stops and that one goes on). -/
  | parseError (line : Nat)
  /-- A bad report range (R114). Raised by `finishRun`; safe: the spec names the error. -/
  | rangeError
  deriving DecidableEq, Repr

/-- Why a step has no meaning. No arm of `exec` uses it: every row of the table has its meaning. -/
inductive Refusal where
  /-- The instruction of this mnemonic has no meaning yet. Raised by an arm of `exec` only; safe: the model stops. -/
  | notModelled (mnemonic : String)
  deriving DecidableEq, Repr

/-- The state before the host has asked for anything (70_reset_and_hazards.md R130: k 0, every cell 0, image and trace under
construction empty). The inputs of an operation, which the spec gives no reset value, are empty (log 25). -/
def State.reset : State where
  memory := []
  k := 0
  image := []
  rangeStart := 0
  rangeEnd := 0
  lines := []
  lineNo := 1
  asmImage := []
  asmTrace := []
  activity := .idle
  requests := []
  outputs := []

end Sys2Proof.Machine
end

