-- ==== Sys2Proof/Machine/Ops.lean ====
section
/-! DEFINITION. The named operations over Memory, the chunk index and the host's results; raising an error. -/

namespace Sys2Proof.Machine

/-! ## Memory as a list -/

/-- The cell at an address; an unlisted cell is 0 (10_state.md R18). -/
def Memory.get : Memory → Nat → Word
  | [], _ => 0
  | (x, v) :: m, addr => if x = addr then v else Memory.get m addr

/-- The list without the cell at an address. -/
def Memory.erase : Memory → Nat → Memory
  | [], _ => []
  | (x, v) :: m, addr => if x = addr then Memory.erase m addr else (x, v) :: Memory.erase m addr

/-- The list with a cell put before the first listed cell of a higher address. -/
def Memory.insert : Memory → Nat → Word → Memory
  | [], addr, w => [(addr, w)]
  | (x, v) :: m, addr, w => if addr < x then (addr, w) :: (x, v) :: m else (x, v) :: Memory.insert m addr w

/-- The cell at an address becomes `w`; a cell that becomes 0 is not listed, so the form stays canonical. -/
def Memory.set (m : Memory) (addr : Nat) (w : Word) : Memory :=
  if w = 0 then m.erase addr else (m.erase addr).insert addr w

/-- The canonical form from address `lo` on: addresses strictly rising and at least `lo`, below 1024 (20_memory.md R27), no
listed cell 0. -/
def Memory.wfFrom : Nat → Memory → Bool
  | _, [] => true
  | lo, (x, v) :: m => decide (lo ≤ x) && decide (x < Config.memCells) && decide (v ≠ 0) && Memory.wfFrom (x + 1) m

/-- The canonical form of Memory: equal memories are equal lists. -/
def Memory.wf (m : Memory) : Bool := Memory.wfFrom 0 m

/-! ## Taking an error -/

/-- An error "saves no state, changes no mode, and transfers control nowhere inside the machine": the operation yields the
error and nothing else (60_exceptions.md R117). There is no return from it (R118). -/
def raise (f : Fault) : Host.Outcome State Fault Refusal := .fault f

/-! ## The memory primitives (43_uvm_opcodes.md R91, R92) -/

/-- `MemRead(addr, 1)`: the address is compared with 1024 and never reduced (R91). -/
def memRead (s : State) (addr : Nat) : Except Fault Word :=
  if addr < Config.memCells then .ok (s.memory.get addr) else .error (.memoryFault s.k)

/-- `MemWrite(addr, 1, v)`: one cell becomes `v`, or `MemoryFault` and no cell changes (R92). -/
def memWrite (s : State) (addr : Nat) (v : Word) : Except Fault State :=
  if addr < Config.memCells then .ok { s with memory := s.memory.set addr v } else .error (.memoryFault s.k)

/-! ## The steps of a meaning -/

/-- Every instruction, whatever its A, advances the chunk index by exactly 1 (10_state.md R12). -/
def State.advance (s : State) : State := { s with k := s.k + 1 }

/-- A result is handed to the host (log 5). -/
def State.emit (s : State) (o : Output) : State := { s with outputs := s.outputs ++ [o] }

/-- The operation that runs ends normally: its result is handed to the host and no operation runs (log 5). -/
def State.finish (s : State) (o : Output) : State := { s with outputs := s.outputs ++ [o], activity := .idle }

/-- A source read, and then the rest of the instruction: an instruction evaluates all its source reads before its write
(20_memory.md R26; 43_uvm_opcodes.md R100). -/
def readThen (s : State) (addr : Nat) (rest : Word → Host.Outcome State Fault Refusal) : Host.Outcome State Fault Refusal :=
  match memRead s addr with
  | .ok v => rest v
  | .error f => raise f

/-- The one write that ends an instruction, and the move to the next chunk (R98, R101). -/
def storeThenAdvance (s : State) (addr : Nat) (v : Word) : Host.Outcome State Fault Refusal :=
  match memWrite s addr v with
  | .ok t => .next t.advance
  | .error f => raise f

/-- An instruction without an effect: only the move to the next chunk (R97, R12). -/
def noEffect (s : State) : Host.Outcome State Fault Refusal := .next s.advance

end Sys2Proof.Machine
end

