-- ==== Sys2Proof/Machine/Text.lean ====
section
/-! DEFINITION. The assembler's text line: `parseLine` (30_encoding.md R46 to R50; D16, D17, D22). A line that does not parse is
`none`: which of the causes of R50 it has is no part of the contract (U6, log 19). -/

namespace Sys2Proof.Machine

/-! ## Characters, whitespace, splitting -/

/-- Whitespace: space, horizontal tab, line feed, vertical tab, form feed, carriage return (D22, log 17). -/
def isSpace (ch : Char) : Bool :=
  ch == ' ' || ch.toNat == 9 || ch.toNat == 10 || ch.toNat == 11 || ch.toNat == 12 || ch.toNat == 13

/-- A line is blank when it consists of whitespace only; the empty line does (R51, D22). -/
def isBlank (l : Line) : Bool := l.all isSpace

/-- The text without whitespace at its two ends (R47). -/
def trim (cs : List Char) : List Char := ((cs.dropWhile isSpace).reverse.dropWhile isSpace).reverse

/-- The pieces between the commas: every comma separates (R47). -/
def splitCommas : List Char → List (List Char)
  | [] => [[]]
  | ch :: cs =>
    if ch = ',' then [] :: splitCommas cs
    else match splitCommas cs with
      | [] => [[ch]]
      | t :: ts => (ch :: t) :: ts

/-- The two sides of the first `=` of a token; none when the token has no `=` (R50 (a); D22). -/
def splitEquals : List Char → Option (List Char × List Char)
  | [] => none
  | ch :: cs => if ch = '=' then some ([], cs) else (splitEquals cs).map fun p => (ch :: p.1, p.2)

/-! ## Values (R48; D16, log 15) -/

/-- An ASCII decimal digit. -/
def isDigit (ch : Char) : Bool := 48 ≤ ch.toNat && ch.toNat ≤ 57

/-- The number whose decimal digits so far are `acc` and whose next digits are the text. -/
def digitsFrom (acc : Nat) : List Char → Option Nat
  | [] => some acc
  | ch :: cs => if isDigit ch then digitsFrom (10 * acc + (ch.toNat - 48)) cs else none

/-- One or more decimal digits. -/
def parseNat : List Char → Option Nat
  | [] => none
  | ch :: cs => digitsFrom 0 (ch :: cs)

/-- An optional single `+` or `-`, then one or more decimal digits; the value has any size. -/
def parseInt : List Char → Option Int
  | [] => none
  | ch :: cs =>
    if ch = '+' then (parseNat cs).map fun (n : Nat) => (n : Int)
    else if ch = '-' then (parseNat cs).map fun (n : Nat) => -(n : Int)
    else (parseNat (ch :: cs)).map fun (n : Nat) => (n : Int)

/-! ## Keys and the field map (R47, R49, R50) -/

/-- A map from key to integer. -/
structure FieldMap where
  a : Option Int
  b : Option Int
  c : Option Int
  d : Option Int
  deriving DecidableEq, Repr

/-- The map without an entry. -/
def emptyMap : FieldMap := { a := none, b := none, c := none, d := none }

/-- The map with one more key. Keys are matched exactly as the single upper-case letters (R49; D17, log 16); another key, or
a key that already has a value, has no place (R50 (d), (b)). -/
def addKey (m : FieldMap) (key : List Char) (v : Int) : Option FieldMap :=
  if key = ['A'] then (if m.a.isNone then some { m with a := some v } else none)
  else if key = ['B'] then (if m.b.isNone then some { m with b := some v } else none)
  else if key = ['C'] then (if m.c.isNone then some { m with c := some v } else none)
  else if key = ['D'] then (if m.d.isNone then some { m with d := some v } else none)
  else none

/-- The map with one more token: key and value are trimmed, the value is an integer (R47; R50 (a), (c)). -/
def addToken (m : FieldMap) (token : List Char) : Option FieldMap :=
  match splitEquals token with
  | none => none
  | some (key, value) =>
    match parseInt (trim value) with
    | none => none
    | some v => addKey m (trim key) v

/-- The map with the tokens of a line, first to last. -/
def addTokens (m : FieldMap) : List (List Char) → Option FieldMap
  | [] => some m
  | t :: ts =>
    match addToken m t with
    | none => none
    | some m' => addTokens m' ts

/-- A parsed line: the required keys A, B, C and the optional key D (R49). -/
structure ParsedLine where
  a : Int
  b : Int
  c : Int
  d : Option Int
  deriving DecidableEq, Repr

/-- The required keys are present (R50 (e)). -/
def requireKeys (m : FieldMap) : Option ParsedLine :=
  match m.a, m.b, m.c with
  | some a, some b, some c => some { a := a, b := b, c := c, d := m.d }
  | _, _, _ => none

/-- `parseLine` (R47); none is `ParseError` (R50). No value is too large or too small (R53). -/
def parseLine (l : Line) : Option ParsedLine :=
  match addTokens emptyMap (splitCommas l) with
  | none => none
  | some m => requireKeys m

end Sys2Proof.Machine
end

