-- ==== Sys2Proof/Machine/Assembler.lean ====
section
/-! DEFINITION. The assembler: `assembleProgram` (42_image_framing.md R80) as a function, and one line of it as a step. -/

namespace Sys2Proof.Machine

/-- The Instruction of a parsed line and its record: D defaults to 0 (30_encoding.md R52), the trace keeps the integers
before truncation (R55; D18, log 18). -/
def traceEntry (p : ParsedLine) : TraceEntry :=
  { a := p.a, b := p.b, c := p.c, d := p.d.getD 0, encodedBytes := ENC p.a p.b p.c (p.d.getD 0) }

/-- Line number `n`: nothing for a blank line (R51), else its trace entry, or `ParseError(n)` (R56; D19, log 19). -/
def assembleLine (n : Nat) (l : Line) : Except Fault (Option TraceEntry) :=
  if isBlank l then .ok none
  else match parseLine l with
    | none => .error (.parseError n)
    | some p => .ok (some (traceEntry p))

/-- The lines from number `n` on, added to an image and a trace under construction. The first bad line ends it (R56;
60_exceptions.md R120 (a)). -/
def assembleFrom (n : Nat) (image : List Byte) (trace : List TraceEntry) :
    List Line → Except Fault (List Byte × List TraceEntry)
  | [] => .ok (image, trace)
  | l :: ls =>
    match assembleLine n l with
    | .error f => .error f
    | .ok none => assembleFrom (n + 1) image trace ls
    | .ok (some e) => assembleFrom (n + 1) (image ++ recBytes e.encodedBytes) (trace ++ [e]) ls

/-- `assembleProgram(lines) → (image, trace)` (R80): both start empty at every call (10_state.md R19). -/
def assembleProgram (lines : List Line) : Except Fault (List Byte × List TraceEntry) := assembleFrom 1 [] [] lines

/-- The start of an assembly (70_reset_and_hazards.md R130): image and trace empty, line 1 is next. -/
def startAssembly (lines : List Line) (s : State) : State :=
  { s with lines := lines, lineNo := 1, asmImage := [], asmTrace := [], activity := .assembling }

/-- One step of a running assembly: the next line, or, after the last line, the result goes to the host. -/
def stepAssembly (s : State) : Host.Outcome State Fault Refusal :=
  match s.lines with
  | [] => .next (s.finish (.assembled s.asmImage s.asmTrace))
  | l :: ls =>
    match assembleLine s.lineNo l with
    | .error f => raise f
    | .ok none => .next { s with lines := ls, lineNo := s.lineNo + 1 }
    | .ok (some e) =>
      .next { s with lines := ls, lineNo := s.lineNo + 1, asmImage := s.asmImage ++ recBytes e.encodedBytes,
                     asmTrace := s.asmTrace ++ [e] }

end Sys2Proof.Machine
end

