-- ==== Sys2Proof/Machine/Codec.lean ====
section
/-! DEFINITION. The codec operations as instructions: the call's result goes to the host, and nothing else changes ("No side
effects beyond producing the byte sequence", 10_state.md R10). They are no instructions of a run and leave k alone. -/

namespace Sys2Proof.Machine

/-- `ENC` (40_encode.md R60): total, raises nothing (R64). -/
def execEnc (a b c d : Int) (s : State) : Host.Outcome State Fault Refusal :=
  .next (s.emit (.record (ENC a b c d)))

/-- The error of the machine that a rejection of the codec is (60_exceptions.md R111). -/
def faultOfReject : DecodeReject → Fault
  | .formatError len => .formatError len

/-- `DEC` at its entry `DEC_SEQ` (41_decode.md R70, R73). -/
def execDec (seq : List Byte) (s : State) : Host.Outcome State Fault Refusal :=
  match decSeq seq with
  | .ok f => .next (s.emit (.fields f))
  | .error e => raise (faultOfReject e)

end Sys2Proof.Machine
end

