-- ==== Sys2Proof/Machine/Operands.lean ====
section
/-! DEFINITION. The operand forms (43_uvm_opcodes.md R102): absolute, absolute plus literal index, immediate. An address is a
mathematical integer (R91), so a natural number here. -/

namespace Sys2Proof.Machine

/-- Absolute destination: the address is the field B (STI, CPY, XOR). -/
def destAbsolute (b : BitVec 28) : Nat := b.toNat

/-- Absolute plus literal index: the exact integer sum B + C, which never wraps (STX; R99 (a), D15, log 14). -/
def destIndexed (b : BitVec 28) (c : BitVec 32) : Nat := b.toNat + c.toNat

/-- Absolute source in field C (CPY, XOR). -/
def sourceC (c : BitVec 32) : Nat := c.toNat

/-- Absolute source in field D (STX, XOR). -/
def sourceD (d : BitVec 24) : Nat := d.toNat

/-- Immediate: the field C is the value itself, all 32 bits of it (STI). -/
def immediateC (c : BitVec 32) : Word := c

end Sys2Proof.Machine
end

