-- ==== Sys2Proof/Machine/Flags.lean ====
section
/-! DEFINITION. The value computations of the ISA and the flags they set: the ISA computes one value, the XOR of two cells,
and there are no flags, condition codes or predicates at all (10_state.md R13), so nothing else is computed here. -/

namespace Sys2Proof.Machine

/-- The XOR of two cells, bit by bit on 32 bits: no carry, no overflow, no flag (43_uvm_opcodes.md R99 (b)). -/
def xorCells (v1 v2 : Word) : Word := v1 ^^^ v2

end Sys2Proof.Machine
end

