-- ==== Sys2Proof/Machine/Nop.lean ====
section
/-! DEFINITION. The twelve no-ops (43_uvm_opcodes.md R97; 30_encoding.md R43): "decoded but produces no memory mutation". B, C
and D are ignored and form no address, so a no-op cannot fault. -/

namespace Sys2Proof.Machine

/-- `NOP0`, A = 0 (R97). -/
def execNop0 (_b : BitVec 28) (_c : BitVec 32) (_d : BitVec 24) (s : State) :
    Host.Outcome State Fault Refusal := noEffect s

/-- `NOP1`, A = 1 (R97). -/
def execNop1 (_b : BitVec 28) (_c : BitVec 32) (_d : BitVec 24) (s : State) :
    Host.Outcome State Fault Refusal := noEffect s

/-- `NOP2`, A = 2 (R97). -/
def execNop2 (_b : BitVec 28) (_c : BitVec 32) (_d : BitVec 24) (s : State) :
    Host.Outcome State Fault Refusal := noEffect s

/-- `NOP4`, A = 4 (R97). -/
def execNop4 (_b : BitVec 28) (_c : BitVec 32) (_d : BitVec 24) (s : State) :
    Host.Outcome State Fault Refusal := noEffect s

/-- `NOP6`, A = 6 (R97). -/
def execNop6 (_b : BitVec 28) (_c : BitVec 32) (_d : BitVec 24) (s : State) :
    Host.Outcome State Fault Refusal := noEffect s

/-- `NOP8`, A = 8 (R97). -/
def execNop8 (_b : BitVec 28) (_c : BitVec 32) (_d : BitVec 24) (s : State) :
    Host.Outcome State Fault Refusal := noEffect s

/-- `NOP10`, A = 10 (R97). -/
def execNop10 (_b : BitVec 28) (_c : BitVec 32) (_d : BitVec 24) (s : State) :
    Host.Outcome State Fault Refusal := noEffect s

/-- `NOP11`, A = 11 (R97). -/
def execNop11 (_b : BitVec 28) (_c : BitVec 32) (_d : BitVec 24) (s : State) :
    Host.Outcome State Fault Refusal := noEffect s

/-- `NOP12`, A = 12 (R97). -/
def execNop12 (_b : BitVec 28) (_c : BitVec 32) (_d : BitVec 24) (s : State) :
    Host.Outcome State Fault Refusal := noEffect s

/-- `NOP13`, A = 13 (R97). -/
def execNop13 (_b : BitVec 28) (_c : BitVec 32) (_d : BitVec 24) (s : State) :
    Host.Outcome State Fault Refusal := noEffect s

/-- `NOP14`, A = 14 (R97). -/
def execNop14 (_b : BitVec 28) (_c : BitVec 32) (_d : BitVec 24) (s : State) :
    Host.Outcome State Fault Refusal := noEffect s

/-- `NOP15`, A = 15 (R97). -/
def execNop15 (_b : BitVec 28) (_c : BitVec 32) (_d : BitVec 24) (s : State) :
    Host.Outcome State Fault Refusal := noEffect s

end Sys2Proof.Machine
end

