-- ==== Sys2Proof/Machine/Store.lean ====
section
/-! DEFINITION. The stores: immediate store, indirect copy, indexed store, bitwise combine (43_uvm_opcodes.md R93 to R96). -/

namespace Sys2Proof.Machine

/-- `STI` (R93): `memory[B] = C`; D is ignored. -/
def execSti (b : BitVec 28) (c : BitVec 32) (_d : BitVec 24) (s : State) : Host.Outcome State Fault Refusal :=
  storeThenAdvance s (destAbsolute b) (immediateC c)

/-- `CPY` (R94): `memory[B] = memory[C]`; D is ignored. -/
def execCpy (b : BitVec 28) (c : BitVec 32) (_d : BitVec 24) (s : State) : Host.Outcome State Fault Refusal :=
  readThen s (sourceC c) fun v => storeThenAdvance s (destAbsolute b) v

/-- `STX` (R95): `memory[B + C] = memory[D]`, the sum exact. -/
def execStx (b : BitVec 28) (c : BitVec 32) (d : BitVec 24) (s : State) : Host.Outcome State Fault Refusal :=
  readThen s (sourceD d) fun v => storeThenAdvance s (destIndexed b c) v

/-- `XOR` (R96): `memory[B] = memory[C] XOR memory[D]`. -/
def execXor (b : BitVec 28) (c : BitVec 32) (d : BitVec 24) (s : State) : Host.Outcome State Fault Refusal :=
  readThen s (sourceC c) fun v1 =>
    readThen s (sourceD d) fun v2 => storeThenAdvance s (destAbsolute b) (xorCells v1 v2)

end Sys2Proof.Machine
end

