-- ==== Sys2Proof/Machine/Dispatch.lean ====
section
/-! DEFINITION. Which meaning each instruction has: one arm per constructor, one direct call each. -/

namespace Sys2Proof.Machine

-- The effect of one instruction.
def exec (i : Instr) (s : State) : Host.Outcome State Fault Refusal :=
  match i with
  | .nop0 b c d => Sys2Proof.Machine.execNop0 b c d s
  | .nop1 b c d => Sys2Proof.Machine.execNop1 b c d s
  | .nop2 b c d => Sys2Proof.Machine.execNop2 b c d s
  | .stx b c d => Sys2Proof.Machine.execStx b c d s
  | .nop4 b c d => Sys2Proof.Machine.execNop4 b c d s
  | .sti b c d => Sys2Proof.Machine.execSti b c d s
  | .nop6 b c d => Sys2Proof.Machine.execNop6 b c d s
  | .cpy b c d => Sys2Proof.Machine.execCpy b c d s
  | .nop8 b c d => Sys2Proof.Machine.execNop8 b c d s
  | .xor b c d => Sys2Proof.Machine.execXor b c d s
  | .nop10 b c d => Sys2Proof.Machine.execNop10 b c d s
  | .nop11 b c d => Sys2Proof.Machine.execNop11 b c d s
  | .nop12 b c d => Sys2Proof.Machine.execNop12 b c d s
  | .nop13 b c d => Sys2Proof.Machine.execNop13 b c d s
  | .nop14 b c d => Sys2Proof.Machine.execNop14 b c d s
  | .nop15 b c d => Sys2Proof.Machine.execNop15 b c d s
  | .enc a b c d => Sys2Proof.Machine.execEnc a b c d s
  | .dec seq => Sys2Proof.Machine.execDec seq s

end Sys2Proof.Machine
end

