-- ==== Sys2Proof/Machine/Interpreter.lean ====
section
/-! DEFINITION. The interpreter: cutting an image into chunks (42_image_framing.md R82, R83), the report (43_uvm_opcodes.md
R104), and one step of a run (R90). -/

namespace Sys2Proof.Machine

/-! ## Chunks -/

/-- The number of chunks of an image: `floor(len / 11)`; the short tail is no chunk (R82, R83). -/
def chunkCount (image : List Byte) : Nat := image.length / Config.recBytes

/-- Chunk `k`, the record with `byte[i] = image[11k + i]`, when the image has one (R82). -/
def chunkAt (image : List Byte) (k : Nat) : Option Record :=
  if k < chunkCount image then some (recOfBytes ((image.drop (Config.recBytes * k)).take Config.recBytes)) else none

/-- Chunks `k`, `k + 1`, ..., `n` of them. -/
def chunksFrom (image : List Byte) (k : Nat) : Nat → List Record
  | 0 => []
  | n + 1 => recOfBytes ((image.drop (Config.recBytes * k)).take Config.recBytes) :: chunksFrom image (k + 1) n

/-- The chunks of an image in rising order (R82). -/
def chunks (image : List Byte) : List Record := chunksFrom image 0 (chunkCount image)

/-! ## The report -/

/-- The pairs `(i, memory[addr])`, `(i + 1, memory[addr + 1])`, ..., `n` of them. -/
def reportPairs (m : Memory) (i addr : Nat) : Nat → List (Nat × Word)
  | 0 => []
  | n + 1 => (i, m.get addr) :: reportPairs m (i + 1) (addr + 1) n

/-- `reportSlice(memory, start, end)` (R104): the position is counted from 0 and is not the address; `RangeError` when a
bound is outside `[0, 1024]` or the start is above the end (60_exceptions.md R114). -/
def reportSlice (m : Memory) (rangeStart rangeEnd : Int) : Except Fault (List (Nat × Word)) :=
  if 0 ≤ rangeStart ∧ rangeStart ≤ rangeEnd ∧ rangeEnd ≤ (Config.memCells : Int) then
    .ok (reportPairs m 0 rangeStart.toNat (rangeEnd - rangeStart).toNat)
  else .error .rangeError

/-! ## A run -/

/-- The start of an interpretation (70_reset_and_hazards.md R130; 10_state.md R18): every cell 0, chunk 0 is next. -/
def startRun (image : List Byte) (rangeStart rangeEnd : Int) (s : State) : State :=
  { s with memory := [], k := 0, image := image, rangeStart := rangeStart, rangeEnd := rangeEnd, activity := .interpreting }

/-- The end of a run, after the last chunk: the report goes to the host (R104; D20, log 7). -/
def finishRun (s : State) : Host.Outcome State Fault Refusal :=
  match reportSlice s.memory s.rangeStart s.rangeEnd with
  | .ok pairs => .next (s.finish (.report pairs))
  | .error f => raise f

/-- One step of a run: chunk `k` is decoded and executed, or there is none left and the run ends (R90). -/
def stepRun (s : State) : Host.Outcome State Fault Refusal :=
  match chunkAt s.image s.k with
  | some r => exec (decode r) s
  | none => finishRun s

/-- The loop of `execute` (R90) over the records that are left: each is decoded and executed, in order, until a fault. -/
def executeRecords : List Record → State → Host.Outcome State Fault Refusal
  | [], s => .next s
  | r :: rs, s =>
    match exec (decode r) s with
    | .next t => executeRecords rs t
    | .fault f => .fault f
    | .refused f => .refused f

/-! ## Loading one instruction from outside -/

/-- The image with the bytes `ys` at byte offset `at'`: what stands before is kept, filled up with 0 where the image is
shorter, and what stands behind is kept (log 3). -/
def placeBytes (image : List Byte) (at' : Nat) (ys : List Byte) : List Byte :=
  image.take at' ++ List.replicate (at' - image.length) 0 ++ ys ++ image.drop (at' + ys.length)

/-- The state with a record as the chunk the interpreter is at, and a run under way. -/
def loadRecord (s : State) (r : Record) : State :=
  { s with image := placeBytes s.image (Config.recBytes * s.k) (recBytes r), activity := .interpreting }

end Sys2Proof.Machine
end

