-- ==== Sys2Proof/Machine/Requests.lean ====
section
/-! DEFINITION. How a host request becomes an operation (70_reset_and_hazards.md R133; log 5). -/

namespace Sys2Proof.Machine

/-- The start of the operation a request asks for. A codec call is an instruction of `exec` and is over in this step; an
assembly and an interpretation begin from their own reset values (R130) and owe nothing to an earlier operation
(60_exceptions.md R118). -/
def startRequest (r : Request) (s : State) : Host.Outcome State Fault Refusal :=
  match r with
  | .encode a b c d => exec (.enc a b c d) s
  | .decode seq => exec (.dec seq) s
  | .assemble lines => .next (startAssembly lines s)
  | .interpret image rangeStart rangeEnd => .next (startRun image rangeStart rangeEnd s)

/-- A step with no operation running: the oldest request starts; with none, nothing happens (log 6). -/
def stepIdle (s : State) : Host.Outcome State Fault Refusal :=
  match s.requests with
  | [] => .next s
  | r :: rs => startRequest r { s with requests := rs }

end Sys2Proof.Machine
end

