-- ==== Sys2Proof/Machine/Step.lean ====
section
/-! DEFINITION. One step of the machine, and an instruction loaded from outside. -/

namespace Sys2Proof.Machine

/-- One step: of the operation that runs, or the start of the next one. The host's requests are looked at only when no
operation runs (60_exceptions.md R119). -/
def step (s : State) : Host.Outcome State Fault Refusal :=
  match s.activity with
  | .idle => stepIdle s
  | .assembling => stepAssembly s
  | .interpreting => stepRun s

/-- The state in which the record with the table's bits `w` is the chunk the next step fetches: a program is loaded from
outside the machine, and this stands for that load (log 3). -/
def State.withFetchWord (s : State) (nbits w : Nat) : State := loadRecord s (tableRecord nbits w)

end Sys2Proof.Machine
end

