-- ==== Sys2Proof/Safety.lean ====
section
/-! DEFINITION. What claims speak of: the addresses an instruction forms, the cell it writes, the invariant of the machine,
and what a safe run is. -/

namespace Sys2Proof

open Sys2Proof.Machine

/-- The addresses an instruction forms, source first: the table of 60_exceptions.md R112. -/
def Instr.addresses : Instr → List Nat
  | .sti b _ _ => [destAbsolute b]
  | .cpy b c _ => [sourceC c, destAbsolute b]
  | .stx b c d => [sourceD d, destIndexed b c]
  | .xor b c d => [sourceC c, sourceD d, destAbsolute b]
  | .nop0 _ _ _ => []
  | .nop1 _ _ _ => []
  | .nop2 _ _ _ => []
  | .nop4 _ _ _ => []
  | .nop6 _ _ _ => []
  | .nop8 _ _ _ => []
  | .nop10 _ _ _ => []
  | .nop11 _ _ _ => []
  | .nop12 _ _ _ => []
  | .nop13 _ _ _ => []
  | .nop14 _ _ _ => []
  | .nop15 _ _ _ => []
  | .enc _ _ _ _ => []
  | .dec _ => []

/-- The address of the one cell an instruction writes, by the function its meaning uses: the column "write" of
43_uvm_opcodes.md R98. -/
def Instr.storeAddr : Instr → Option Nat
  | .sti b _ _ => some (destAbsolute b)
  | .cpy b _ _ => some (destAbsolute b)
  | .stx b c _ => some (destIndexed b c)
  | .xor b _ _ => some (destAbsolute b)
  | .nop0 _ _ _ => none
  | .nop1 _ _ _ => none
  | .nop2 _ _ _ => none
  | .nop4 _ _ _ => none
  | .nop6 _ _ _ => none
  | .nop8 _ _ _ => none
  | .nop10 _ _ _ => none
  | .nop11 _ _ _ => none
  | .nop12 _ _ _ => none
  | .nop13 _ _ _ => none
  | .nop14 _ _ _ => none
  | .nop15 _ _ _ => none
  | .enc _ _ _ _ => none
  | .dec _ => none

/-- The invariant of the machine: Memory has its canonical form (no cell outside `[0, 1024)`), the chunk index has not passed
the end of the image (10_state.md R12), the image under construction is the records of the trace in order (20_memory.md
R33), and line numbers count from 1 (D19). -/
structure Machine.Inv (s : State) : Prop where
  memory_wf : s.memory.wf = true
  index_le : s.k ≤ chunkCount s.image
  image_of_trace : s.asmImage = s.asmTrace.flatMap fun e => recBytes e.encodedBytes
  trace_encodes : ∀ e ∈ s.asmTrace, e.encodedBytes = ENC e.a e.b e.c e.d
  line_pos : 1 ≤ s.lineNo

/-- An image no instruction of which forms an address at or above 1024: its run raises no `MemoryFault` (R112). -/
def Machine.SafeImage (image : List Byte) : Prop := ∀ r ∈ chunks image, ∀ x ∈ (decode r).addresses, x < Config.memCells

end Sys2Proof
end

