-- ==== Sys2Proof/Certificates/Slice0/Obligations.lean ====
section
/-! DEFINITION. The statements for the provers. Each docstring names the rule of the spec it formalises and, where it rests
on a decision of the spec or of the model, that decision and its log entry. -/

open Sys2Proof Sys2Proof.Machine

/-! ## The codec -/

/-- `ENC` completes on every operand and hands over the record whose integer is the four operands, each cut to its width and
laid end to end; byte `i` is bits `8i+7 : 8i`. Nothing else changes. (40_encode.md ENC; negative operands are decision D4, log
10; B's place is D5, log 11; the channel to the host is the model's, log 5.) -/
def Obligations.EncPacksTruncatedOperands : Prop :=
  ∀ (a b c d : Int) (s : State), ∃ r : Record,
    exec (.enc a b c d) s = .next { s with outputs := s.outputs ++ [.record r] } ∧
    (r.toNat : Int) = a % 2 ^ 4 + b % 2 ^ 28 * 2 ^ 4 + c % 2 ^ 32 * 2 ^ 32 + d % 2 ^ 24 * 2 ^ 64 ∧
    (recBytes r).length = 11 ∧
    ∀ i < 11, ((recBytes r)[i]?).map BitVec.toNat = some (r.toNat / 2 ^ (8 * i) % 256)

/-- The eleven bytes of packed fields, by the packing formulas (30_encoding.md section 1; B's nibble is D5, log 11). -/
def Obligations.PackedBytesFollowLayout : Prop :=
  ∀ f : Fields,
    (recBytes (pack f)).map BitVec.toNat =
      [ 16 * (f.b.toNat % 16) + f.a.toNat, f.b.toNat / 2 ^ 4 % 256, f.b.toNat / 2 ^ 12 % 256, f.b.toNat / 2 ^ 20 % 256,
        f.c.toNat % 256, f.c.toNat / 2 ^ 8 % 256, f.c.toNat / 2 ^ 16 % 256, f.c.toNat / 2 ^ 24 % 256,
        f.d.toNat % 256, f.d.toNat / 2 ^ 8 % 256, f.d.toNat / 2 ^ 16 % 256 ]

/-- `DEC` completes on every sequence of 11 bytes and hands over the four fields the unpacking formulas give; nothing else
changes. (41_decode.md DEC, 30_encoding.md section 1; B's nibble is D5, log 11; the channel to the host is log 5.) -/
def Obligations.DecUnpacksElevenBytes : Prop :=
  ∀ (y0 y1 y2 y3 y4 y5 y6 y7 y8 y9 y10 : Byte) (s : State), ∃ f : Fields,
    exec (.dec [y0, y1, y2, y3, y4, y5, y6, y7, y8, y9, y10]) s = .next { s with outputs := s.outputs ++ [.fields f] } ∧
    f.a.toNat = y0.toNat % 16 ∧
    f.b.toNat = y0.toNat / 16 + y1.toNat * 2 ^ 4 + y2.toNat * 2 ^ 12 + y3.toNat * 2 ^ 20 ∧
    f.c.toNat = y4.toNat + y5.toNat * 2 ^ 8 + y6.toNat * 2 ^ 16 + y7.toNat * 2 ^ 24 ∧
    f.d.toNat = y8.toNat + y9.toNat * 2 ^ 8 + y10.toNat * 2 ^ 16

/-- A sequence of another length than 11 is a `FormatError` that carries its length, too short and too long alike; one of
length 11 is decoded by `DEC`. (41_decode.md DEC_SEQ; the payload is decision D11, log 12; the channel is log 5.) -/
def Obligations.WrongLengthIsFormatError : Prop :=
  ∀ (seq : List Byte) (s : State),
    (seq.length ≠ 11 → exec (.dec seq) s = .fault (.formatError seq.length)) ∧
    (seq.length = 11 → ∃ r : Record, recBytes r = seq ∧
      exec (.dec seq) s = .next { s with outputs := s.outputs ++ [.fields (DEC r)] })

/-- R75, law 1: `ENC(DEC(rec)) = rec` for every record, each of the 11 bytes among them. -/
def Obligations.EncOfDecIsTheRecord : Prop :=
  ∀ r : Record,
    ENC (DEC r).a.toNat (DEC r).b.toNat (DEC r).c.toNat (DEC r).d.toNat = r ∧
    recOfBytes (recBytes r) = r

/-- Law 2: `DEC(ENC(a, b, c, d))` is the four operands modulo their widths, for all integers (41_decode.md, round-trip laws;
negative operands are decision D4, log 10). -/
def Obligations.DecOfEncReducesEachOperand : Prop :=
  ∀ a b c d : Int,
    ((DEC (ENC a b c d)).a.toNat : Int) = a % 2 ^ 4 ∧
    ((DEC (ENC a b c d)).b.toNat : Int) = b % 2 ^ 28 ∧
    ((DEC (ENC a b c d)).c.toNat : Int) = c % 2 ^ 32 ∧
    ((DEC (ENC a b c d)).d.toNat : Int) = d % 2 ^ 24

/-- Two calls of `ENC` give the same record exactly when the operands agree modulo the widths, and every record is the `ENC` of
in-range operands (40_encode.md ENC, an inference the spec marks as derived; D4, log 10). -/
def Obligations.EncEqualIffOperandsCongruent : Prop :=
  (∀ a b c d a2 b2 c2 d2 : Int,
    ENC a b c d = ENC a2 b2 c2 d2 ↔
      a % 2 ^ 4 = a2 % 2 ^ 4 ∧ b % 2 ^ 28 = b2 % 2 ^ 28 ∧ c % 2 ^ 32 = c2 % 2 ^ 32 ∧ d % 2 ^ 24 = d2 % 2 ^ 24) ∧
  (∀ r : Record, ∃ a b c d : Nat, a < 2 ^ 4 ∧ b < 2 ^ 28 ∧ c < 2 ^ 32 ∧ d < 2 ^ 24 ∧ ENC a b c d = r)

/-- `DEC` is a bijection from records onto in-range field tuples (41_decode.md, round-trip laws, marked derived there). -/
def Obligations.DecIsABijection : Prop := Function.Bijective DEC

/-- On buses of at least 32 bits it does not matter whether a bus is read as unsigned or as two's complement; on 32 bits C is
never cut and A, B, D keep their low 4, 28 and 24 bus bits (40_encode.md ENC, marked derived there; the bus width is the open
parameter of decision D3, log 9). -/
def Obligations.BusReadingDoesNotMatter : Prop :=
  (∀ (xin : Nat), 32 ≤ xin → ∀ a b c d : BitVec xin,
    ENCBus xin a b c d = ENC a.toInt b.toInt c.toInt d.toInt) ∧
  (∀ a b c d : BitVec 32,
    DEC (ENCBus 32 a b c d) =
      { a := a.extractLsb' 0 4, b := b.extractLsb' 0 28, c := c, d := d.extractLsb' 0 24 })

/-! ## Decoding and encoding instructions -/

/-- Every instruction that stands in an image has a record, and that record, as a value and as its 11 bytes, decodes to the
instruction with every operand it had (30_encoding.md sections 1 and 5). -/
def Obligations.DecodeOfEncodeIsTheInstruction : Prop :=
  ∀ i : Instr, i.inImage = true →
    ∃ r : Record, encode i = some r ∧ decode r = i ∧ decodeBytes (recBytes r) = .ok i

/-- Every sequence of 11 bytes decodes to an instruction that stands in an image, and the instruction's record is those bytes
again, unused fields and no-ops included; any other length is rejected (30_encoding.md R44 marked derived; 41_decode.md). -/
def Obligations.EncodeOfDecodeIsTheBytes : Prop :=
  ∀ ys : List Byte,
    (ys.length = 11 → ∃ i : Instr, decodeBytes ys = .ok i ∧ i.inImage = true ∧ (encode i).map recBytes = some ys) ∧
    (ys.length ≠ 11 → decodeBytes ys = .error (.formatError ys.length))

/-- The interpreter selects an instruction by field A alone, which is the low nibble of byte 0; the map is total over the 16
values; the fields are those of `DEC`. (30_encoding.md section 5; the mnemonics are decision D10, log 24.) -/
def Obligations.LowNibbleSelectsTheInstruction : Prop :=
  ∀ r : Record, ∀ n : Nat, n = (recByte r 0).toNat % 16 →
    n = r.toNat % 16 ∧
    (n = 3 ↔ decode r = .stx (DEC r).b (DEC r).c (DEC r).d) ∧
    (n = 5 ↔ decode r = .sti (DEC r).b (DEC r).c (DEC r).d) ∧
    (n = 7 ↔ decode r = .cpy (DEC r).b (DEC r).c (DEC r).d) ∧
    (n = 9 ↔ decode r = .xor (DEC r).b (DEC r).c (DEC r).d) ∧
    (n = 0 ↔ decode r = .nop0 (DEC r).b (DEC r).c (DEC r).d) ∧
    (n = 1 ↔ decode r = .nop1 (DEC r).b (DEC r).c (DEC r).d) ∧
    (n = 2 ↔ decode r = .nop2 (DEC r).b (DEC r).c (DEC r).d) ∧
    (n = 4 ↔ decode r = .nop4 (DEC r).b (DEC r).c (DEC r).d) ∧
    (n = 6 ↔ decode r = .nop6 (DEC r).b (DEC r).c (DEC r).d) ∧
    (n = 8 ↔ decode r = .nop8 (DEC r).b (DEC r).c (DEC r).d) ∧
    (n = 10 ↔ decode r = .nop10 (DEC r).b (DEC r).c (DEC r).d) ∧
    (n = 11 ↔ decode r = .nop11 (DEC r).b (DEC r).c (DEC r).d) ∧
    (n = 12 ↔ decode r = .nop12 (DEC r).b (DEC r).c (DEC r).d) ∧
    (n = 13 ↔ decode r = .nop13 (DEC r).b (DEC r).c (DEC r).d) ∧
    (n = 14 ↔ decode r = .nop14 (DEC r).b (DEC r).c (DEC r).d) ∧
    (n = 15 ↔ decode r = .nop15 (DEC r).b (DEC r).c (DEC r).d)

/-- Five words of the spec's vectors decode to the instructions they stand for (95_test_vectors.md T-ENC-6, T-ENC-2, T-ENC-3,
T-ENC-4, and the example of 43_uvm_opcodes.md NOP); the bytes are the spec's own derivations (N3). -/
def Obligations.SampleWordsDecode : Prop :=
  decodeBytes [0x75, 0x56, 0x34, 0x12, 0xEF, 0xCD, 0xAB, 0x89, 0x9B, 0x57, 0x13] = .ok (.sti 0x1234567 0x89ABCDEF 0x13579B) ∧
  decodeBytes [0x47, 0x01, 0x00, 0x00, 0x0A, 0x00, 0x00, 0x00, 0x00, 0x00, 0x00] = .ok (.cpy 20 10 0) ∧
  decodeBytes [0x03, 0x00, 0x00, 0x00, 0x01, 0x00, 0x00, 0x00, 0x01, 0x00, 0x00] = .ok (.stx 0 1 1) ∧
  decodeBytes [0x29, 0x00, 0x00, 0x00, 0x00, 0x00, 0x00, 0x00, 0x01, 0x00, 0x00] = .ok (.xor 2 0 1) ∧
  decodeBytes [0x0C, 0x00, 0x00, 0x40, 0xFF, 0xFF, 0xFF, 0xFF, 0xFF, 0xFF, 0xFF] = .ok (.nop12 0x4000000 0xFFFFFFFF 0xFFFFFF)

/-! ## Memory -/

/-- R91: `MemRead` gives the cell for an address below 1024, and `MemoryFault(k)` for any other, never a cell at the address
reduced. (`k` is the chunk index, 43_uvm_opcodes.md, opening; log 13.) -/
def Obligations.MemReadIsBoundChecked : Prop :=
  ∀ (s : State) (addr : Nat),
    (addr < 1024 → memRead s addr = .ok (s.memory.get addr)) ∧
    (1024 ≤ addr → memRead s addr = .error (.memoryFault s.k))

/-- R92: `MemWrite` makes one cell `v` and leaves every other cell and the rest of the state; out of range it is
`MemoryFault(k)` and nothing else. -/
def Obligations.MemWriteChangesOneCell : Prop :=
  ∀ (s : State) (addr : Nat) (v : Word),
    (addr < 1024 → ∃ m : Memory, memWrite s addr v = .ok { s with memory := m } ∧ m.get addr = v ∧
      ∀ x, x ≠ addr → m.get x = s.memory.get x) ∧
    (1024 ≤ addr → memWrite s addr v = .error (.memoryFault s.k))

/-- Canonical memories that read alike at every address are the same list (the form is the model's, log 1). -/
def Obligations.CanonicalMemoryIsUnique : Prop :=
  ∀ m1 m2 : Memory, m1.wf = true → m2.wf = true → (∀ addr, m1.get addr = m2.get addr) → m1 = m2

/-! ## The instructions -/

/-- R93, `STI`: A = 5; `memory[B]` becomes C, all 32 bits of it; D is ignored; a B at or above 1024 is
`MemoryFault(k)`. Every other cell and all other state but k stay. -/
def Obligations.StiStoresTheLiteral : Prop :=
  (∀ r : Record, (recByte r 0).toNat % 16 = 5 → decode r = .sti (DEC r).b (DEC r).c (DEC r).d) ∧
  ∀ (b : BitVec 28) (c : BitVec 32) (d : BitVec 24) (s : State),
    (b.toNat < 1024 → ∃ m : Memory,
      exec (.sti b c d) s = .next { s with memory := m, k := s.k + 1 } ∧
      ∀ x, m.get x = if x = b.toNat then c else s.memory.get x) ∧
    (1024 ≤ b.toNat → exec (.sti b c d) s = .fault (.memoryFault s.k)) ∧
    (∀ d2 : BitVec 24, exec (.sti b c d2) s = exec (.sti b c d) s)

/-- R94, `CPY`: A = 7; `memory[B]` becomes `memory[C]`, one level of indirection; D is ignored; a C or B at or above 1024
faults. Every other cell and all other state but k stay. -/
def Obligations.CpyCopiesOneCell : Prop :=
  (∀ r : Record, (recByte r 0).toNat % 16 = 7 → decode r = .cpy (DEC r).b (DEC r).c (DEC r).d) ∧
  ∀ (b : BitVec 28) (c : BitVec 32) (d : BitVec 24) (s : State),
    (c.toNat < 1024 → b.toNat < 1024 → ∃ m : Memory,
      exec (.cpy b c d) s = .next { s with memory := m, k := s.k + 1 } ∧
      ∀ x, m.get x = if x = b.toNat then s.memory.get c.toNat else s.memory.get x) ∧
    (1024 ≤ c.toNat ∨ 1024 ≤ b.toNat → exec (.cpy b c d) s = .fault (.memoryFault s.k)) ∧
    (∀ d2 : BitVec 24, exec (.cpy b c d2) s = exec (.cpy b c d) s)

/-- `STX` (43_uvm_opcodes.md section 3): A = 3; `memory[B + C]` becomes `memory[D]`; the sum is exact, so a sum at or above
1024 faults whatever it is modulo 2^32 (decision D15, log 14). Every other cell and all other state but k stay. -/
def Obligations.StxStoresAtTheExactSum : Prop :=
  (∀ r : Record, (recByte r 0).toNat % 16 = 3 → decode r = .stx (DEC r).b (DEC r).c (DEC r).d) ∧
  ∀ (b : BitVec 28) (c : BitVec 32) (d : BitVec 24) (s : State),
    (d.toNat < 1024 → b.toNat + c.toNat < 1024 → ∃ m : Memory,
      exec (.stx b c d) s = .next { s with memory := m, k := s.k + 1 } ∧
      ∀ x, m.get x = if x = b.toNat + c.toNat then s.memory.get d.toNat else s.memory.get x) ∧
    (1024 ≤ d.toNat ∨ 1024 ≤ b.toNat + c.toNat → exec (.stx b c d) s = .fault (.memoryFault s.k))

/-- R96, `XOR`: A = 9; `memory[B]` becomes the bitwise exclusive or of the old `memory[C]` and `memory[D]`; a C, D or B at or
above 1024 faults. Every other cell and all other state but k stay. -/
def Obligations.XorCombinesTwoCells : Prop :=
  (∀ r : Record, (recByte r 0).toNat % 16 = 9 → decode r = .xor (DEC r).b (DEC r).c (DEC r).d) ∧
  ∀ (b : BitVec 28) (c : BitVec 32) (d : BitVec 24) (s : State),
    (c.toNat < 1024 → d.toNat < 1024 → b.toNat < 1024 → ∃ m : Memory,
      exec (.xor b c d) s = .next { s with memory := m, k := s.k + 1 } ∧
      ∀ x, (x = b.toNat → ∀ j < 32,
            (m.get x).getLsbD j = ((s.memory.get c.toNat).getLsbD j != (s.memory.get d.toNat).getLsbD j)) ∧
           (x ≠ b.toNat → m.get x = s.memory.get x)) ∧
    (1024 ≤ c.toNat ∨ 1024 ≤ d.toNat ∨ 1024 ≤ b.toNat → exec (.xor b c d) s = .fault (.memoryFault s.k))

/-- R97, `NOP`: every record whose A is none of 3, 5, 7, 9, and each of the twelve no-ops with any B, C and D, completes,
leaves all of Memory and everything else, and only moves on to the next chunk. -/
def Obligations.NopOnlyMovesOn : Prop :=
  (∀ (r : Record) (s : State), (recByte r 0).toNat % 16 ∉ [3, 5, 7, 9] →
    exec (decode r) s = .next { s with k := s.k + 1 }) ∧
  ∀ (b : BitVec 28) (c : BitVec 32) (d : BitVec 24) (s : State),
    ∀ i ∈ [Instr.nop0 b c d, .nop1 b c d, .nop2 b c d, .nop4 b c d, .nop6 b c d, .nop8 b c d, .nop10 b c d, .nop11 b c d,
        .nop12 b c d, .nop13 b c d, .nop14 b c d, .nop15 b c d],
      exec i s = .next { s with k := s.k + 1 }

/-- An instruction of an image faults exactly when one of the addresses the table lists for it is at or above 1024; the fault
carries the chunk index; otherwise it completes. (60_exceptions.md section 1, 43_uvm_opcodes.md section 4; the payload is
decision D13, log 13; the sum of STX is D15, log 14.) -/
def Obligations.OutOfRangeAddressFaults : Prop :=
  ∀ (i : Instr) (s : State), i.inImage = true →
    ((∃ x ∈ i.addresses, 1024 ≤ x) → exec i s = .fault (.memoryFault s.k)) ∧
    ((∀ x ∈ i.addresses, x < 1024) → ∃ t, exec i s = .next t ∧ t.k = s.k + 1)

/-- The frame of every instruction of an image (STX, STI, CPY, XOR and the twelve no-ops): only k and Memory can change, k by
exactly 1, and of Memory only the cell at the address the instruction stores to; a form that stores nothing leaves every
cell. (43_uvm_opcodes.md section 4; 20_memory.md sections 4 and 7.) -/
def Obligations.InstructionFrame : Prop :=
  ∀ (i : Instr) (s t : State), i.inImage = true → exec i s = .next t →
    t = { s with memory := t.memory, k := s.k + 1 } ∧
    ∀ x, i.storeAddr ≠ some x → t.memory.get x = s.memory.get x

/-- No instruction of an image can read the chunk index: with another index the same cells are written, and the index moves
on from there (10_state.md section 3). -/
def Obligations.NoInstructionReadsTheIndex : Prop :=
  ∀ (i : Instr) (s t : State) (j : Nat), i.inImage = true → exec i s = .next t →
    exec i { s with k := j } = .next { t with k := j + 1 }

/-! ## The step and the run -/

/-- An image of L bytes has floor(L / 11) chunks. While a run is on and chunk k exists, the chunk is the record of image bytes
11k to 11k + 10, the step is the effect of the instruction it decodes to, and chunk k + 1 is next. (42_image_framing.md
IMAGE_SPLIT.) When no whole chunk is left, the step executes nothing: that this step is the report and leaves the machine
idle is the model's choice, log 7, and that k and Memory stay is log 23. -/
def Obligations.StepRunsTheDecodedChunk : Prop :=
  ∀ s : State, s.activity = .interpreting →
    (s.k < s.image.length / 11 → ∃ r : Record,
      (∀ i < 11, s.image[11 * s.k + i]? = some (recByte r i)) ∧ step s = exec (decode r) s ∧
      ∀ t, step s = .next t → t.activity = .interpreting ∧ t.k = s.k + 1) ∧
    (s.image.length / 11 ≤ s.k → ∀ t, step s = .next t → t.activity = .idle ∧ t.k = s.k ∧ t.memory = s.memory)

/-- An instruction loaded from outside runs in the very next step (the load is the model's, log 3). -/
def Obligations.LoadedWordRunsNext : Prop :=
  ∀ (s : State) (nbits w : Nat), nbits ≤ 88 →
    ∃ i, decodeTableWord nbits w = some i ∧ i.fields.map (fun f => f.a.toNat) = some (w % 2 ^ nbits % 16) ∧
      step (s.withFetchWord nbits w) = exec i (s.withFetchWord nbits w)

/-- The bytes behind the last whole record are ignored: with or without them every step of a run does the same, with no error of
its own (42_image_framing.md IMAGE_SPLIT). Behind the last whole chunk nothing is executed: that the step there is the report
and leaves the machine idle is the model's choice, log 7, and that k and Memory stay is log 23. That the whole chunks before
it are executed is `StepRunsTheDecodedChunk`. -/
def Obligations.TrailingBytesAreIgnored : Prop :=
  ∀ (s : State) (tail : List Byte), s.activity = .interpreting → s.image.length % 11 = 0 → tail.length < 11 →
    (∀ t, step s = .next t → step { s with image := s.image ++ tail } = .next { t with image := s.image ++ tail }) ∧
    (∀ f, step s = .fault f → step { s with image := s.image ++ tail } = .fault f) ∧
    (s.image.length / 11 ≤ s.k → ∀ t, step { s with image := s.image ++ tail } = .next t →
      t.activity = .idle ∧ t.k = s.k ∧ t.memory = s.memory)

/-- The run ends after the last chunk: with a legal range the report goes to the host, its positions counted from 0 and its
values those of the cells from the start of the range on; with a bad range it ends in `RangeError`. Memory stays.
(43_uvm_opcodes.md section 5; that the range is checked then is decision D20, log 7; the channel is log 5.) -/
def Obligations.RunEndsWithTheReport : Prop :=
  ∀ s : State, s.activity = .interpreting → s.image.length / 11 ≤ s.k →
    ((0 ≤ s.rangeStart ∧ s.rangeStart ≤ s.rangeEnd ∧ s.rangeEnd ≤ 1024) → ∃ pairs : List (Nat × Word),
      step s = .next { s with activity := .idle, outputs := s.outputs ++ [.report pairs] } ∧
      (pairs.length : Int) = s.rangeEnd - s.rangeStart ∧
      ∀ i < pairs.length, pairs[i]? = some (i, s.memory.get (s.rangeStart.toNat + i))) ∧
    (¬ (0 ≤ s.rangeStart ∧ s.rangeStart ≤ s.rangeEnd ∧ s.rangeEnd ≤ 1024) → step s = .fault .rangeError)

/-- R114: the report range is refused exactly when a bound is outside [0, 1024] or the start is above the end. -/
def Obligations.RangeErrorExactlyOnBadRange : Prop :=
  ∀ (m : Memory) (lo hi : Int),
    reportSlice m lo hi = .error .rangeError ↔
      (¬ (0 ≤ lo ∧ lo ≤ 1024) ∨ ¬ (0 ≤ hi ∧ hi ≤ 1024) ∨ hi < lo)

/-- A run started by the host begins from the reset values whatever was there before: every cell 0, chunk 0. (10_state.md
section 8, 70_reset_and_hazards.md section 1; the request queue is the model's, log 5.) -/
def Obligations.EveryRunStartsFresh : Prop :=
  ∀ (s : State) (image : List Byte) (lo hi : Int) (rest : List Request),
    s.activity = .idle → s.requests = .interpret image lo hi :: rest →
    ∃ m : Memory,
      step s = .next { s with memory := m, k := 0, image := image, rangeStart := lo, rangeEnd := hi, activity := .interpreting,
                              requests := rest } ∧
      m.wf = true ∧ ∀ x, m.get x = 0

/-- An assembly started by the host begins with an empty image, an empty trace and line 1, whatever an earlier one left.
(10_state.md section 8, 42_image_framing.md IMAGE_BUILD; line 1 is D19, log 19; the request queue is log 5.) -/
def Obligations.EveryAssemblyStartsFresh : Prop :=
  ∀ (s : State) (ls : List Line) (rest : List Request),
    s.activity = .idle → s.requests = .assemble ls :: rest →
    step s = .next { s with lines := ls, lineNo := 1, asmImage := [], asmTrace := [], activity := .assembling,
                            requests := rest }

/-- A codec call of the host is one step: `ENC` of its operands, `DEC_SEQ` of its bytes; without a request nothing happens
(the request queue is the model's, log 5; the idle step is log 6). -/
def Obligations.IdleStepServesTheOldestCall : Prop :=
  ∀ s : State, s.activity = .idle →
    (∀ a b c d rest, s.requests = .encode a b c d :: rest → step s = exec (.enc a b c d) { s with requests := rest }) ∧
    (∀ seq rest, s.requests = .decode seq :: rest → step s = exec (.dec seq) { s with requests := rest }) ∧
    (s.requests = [] → step s = .next s)

/-- While an operation runs, what the host asks for meanwhile changes nothing about the step, and the step takes no request.
(60_exceptions.md section 3; that requests stand in a list and wait until the machine is idle is the model's choice, log 5.) -/
def Obligations.HostCannotTouchARunningOperation : Prop :=
  ∀ (s : State) (q : List Request), s.activity ≠ .idle →
    (∀ t, step s = .next t → t.requests = s.requests ∧ step { s with requests := q } = .next { t with requests := q }) ∧
    (∀ f, step s = .fault f → step { s with requests := q } = .fault f)

/-- Each of the four errors has its one cause, and carries the length, the chunk index or the line number: a `MemoryFault` comes
from an address at or above 1024 that the instruction of chunk k forms, and from nothing else. (60_exceptions.md section 1; the
sum of STX is D15, log 14; the payloads are decisions D11, D13, D19, logs 12, 13, 19; the order of execute and report is D20, log 7.) -/
def Obligations.EachErrorHasItsOneCause : Prop :=
  ∀ (s : State) (f : Fault), step s = .fault f →
    match f with
    | .formatError n => s.activity = .idle ∧ n ≠ 11 ∧ ∃ seq rest, s.requests = .decode seq :: rest ∧ seq.length = n
    | .memoryFault j => s.activity = .interpreting ∧ j = s.k ∧ s.k < s.image.length / 11 ∧
        ∃ r : Record, chunkAt s.image s.k = some r ∧ ∃ x ∈ (decode r).addresses, 1024 ≤ x
    | .parseError n => s.activity = .assembling ∧ n = s.lineNo ∧
        ∃ l rest, s.lines = l :: rest ∧ isBlank l = false ∧ parseLine l = none
    | .rangeError => s.activity = .interpreting ∧ s.image.length / 11 ≤ s.k ∧
        ¬ (0 ≤ s.rangeStart ∧ s.rangeStart ≤ s.rangeEnd ∧ s.rangeEnd ≤ 1024)

/-- No instruction is refused, and no step is: every encoding and every row of the table has its meaning (30_encoding.md
section 5). -/
def Obligations.NothingIsRefused : Prop :=
  (∀ (i : Instr) (s : State) (r : Refusal), exec i s ≠ .refused r) ∧ ∀ (s : State) (r : Refusal), step s ≠ .refused r

/-- A result handed to the host is never taken back or changed, and a step hands over at most one (the channel is the
model's, log 5). -/
def Obligations.ResultsAreOnlyAdded : Prop :=
  ∀ s t : State, step s = .next t → t.outputs = s.outputs ∨ ∃ o, t.outputs = s.outputs ++ [o]

/-- Every run terminates: from chunk k of an image with n chunks, at most n - k instructions and the report; it ends idle or in
a `MemoryFault` or a `RangeError`. (43_uvm_opcodes.md section 1, marked derived there; the report as a step is log 7.) -/
def Obligations.EveryRunTerminates : Prop :=
  ∀ s : State, s.activity = .interpreting →
    ∃ n ≤ s.image.length / 11 - s.k + 1,
      (∃ t : State, core.run n s = .next t ∧ t.activity = .idle ∧ t.requests = s.requests) ∨
      (∃ j, core.run n s = .fault (.memoryFault j) ∧ s.k ≤ j ∧ j < s.image.length / 11) ∨
      core.run n s = .fault .rangeError

/-- The steps of a run are the loop of `execute`: n steps from chunk 0 decode and execute the n chunks of the image in order,
and end as the loop ends. (43_uvm_opcodes.md section 1; 42_image_framing.md IMAGE_SPLIT.) -/
def Obligations.StepsOfARunAreTheExecuteLoop : Prop :=
  ∀ s : State, s.activity = .interpreting → s.k = 0 →
    core.run (s.image.length / 11) s = executeRecords (chunks s.image) s

/-- Cutting the concatenation of records, with or without a short tail, gives the records back; and encoding the decoded
chunks of any image gives its whole records back byte for byte. (42_image_framing.md IMAGE_SPLIT, marked derived there.) -/
def Obligations.CuttingAnImageGivesItsRecords : Prop :=
  (∀ (rs : List Record) (tail : List Byte), tail.length < 11 → chunks (rs.flatMap recBytes ++ tail) = rs) ∧
  (∀ image : List Byte,
    (chunks image).flatMap (fun r => recBytes (pack (DEC r))) = image.take (11 * (image.length / 11)))

/-- An image whose instructions all form legal addresses, run with a legal range, runs to its end without an error: after one
step for each chunk and one for the report the machine is idle and has handed over one report, of the range's length.
(43_uvm_opcodes.md sections 1 and 5, 60_exceptions.md section 1; the report as a step is log 7, the output list log 5; the sum
of STX is decision D15, log 14.) -/
def Obligations.SafeImageRunsToItsReport : Prop :=
  ∀ s : State, s.activity = .interpreting → s.k = 0 → SafeImage s.image →
    0 ≤ s.rangeStart → s.rangeStart ≤ s.rangeEnd → s.rangeEnd ≤ 1024 →
    ∃ (t : State) (pairs : List (Nat × Word)),
      core.run (s.image.length / 11 + 1) s = .next t ∧ t.activity = .idle ∧ t.k = s.image.length / 11 ∧
      t.outputs = s.outputs ++ [.report pairs] ∧ (pairs.length : Int) = s.rangeEnd - s.rangeStart ∧
      ∀ i < pairs.length, pairs[i]? = some (i, t.memory.get (s.rangeStart.toNat + i))

/-! ## The assembler -/

/-- A line fails to parse in exactly these cases: a token without `=`, a key that occurs twice, a value that is not an integer
literal, a key that is none of A, B, C, D, a required key that is absent. (30_encoding.md section 7; what a literal, a key and
a space are is decisions D16, D17, D22, logs 15, 16, 17.) -/
def Obligations.ParseFailsInExactlyTheseCases : Prop :=
  ∀ l : Line,
    parseLine l = none ↔
      (∃ t ∈ splitCommas l, splitEquals t = none) ∨
      (∃ p x q y r kx vx ky vy, splitCommas l = p ++ x :: q ++ y :: r ∧ splitEquals x = some (kx, vx) ∧
        splitEquals y = some (ky, vy) ∧ trim kx = trim ky) ∨
      (∃ t ∈ splitCommas l, ∃ key v, splitEquals t = some (key, v) ∧ parseInt (trim v) = none) ∨
      (∃ t ∈ splitCommas l, ∃ key v, splitEquals t = some (key, v) ∧ trim key ∉ [['A'], ['B'], ['C'], ['D']]) ∨
      (∃ name ∈ [['A'], ['B'], ['C']], ∀ t ∈ splitCommas l, ∀ key v, splitEquals t = some (key, v) → trim key ≠ name)

/-- A line that parses gives each key the value its token has, and no D when the line has none. (30_encoding.md section 7.) -/
def Obligations.ParsedValuesAreTheTokens : Prop :=
  ∀ (l : Line) (p : ParsedLine), parseLine l = some p →
    ∀ (name : Char) (v : Int),
      (∃ t ∈ splitCommas l, ∃ key value, splitEquals t = some (key, value) ∧ trim key = [name] ∧
        parseInt (trim value) = some v) ↔
      (name = 'A' ∧ v = p.a) ∨ (name = 'B' ∧ v = p.b) ∨ (name = 'C' ∧ v = p.c) ∨ (name = 'D' ∧ p.d = some v)

/-- The order of the tokens on a line does not matter (30_encoding.md section 7, marked derived there). -/
def Obligations.KeyOrderDoesNotMatter : Prop :=
  ∀ l1 l2 : Line, (splitCommas l1).Perm (splitCommas l2) → parseLine l1 = parseLine l2

/-- What an integer literal is and what it is worth: an optional sign and one or more decimal digits, of any size; everything
else is none. (30_encoding.md section 7; the grammar is decision D16, log 15.) -/
def Obligations.IntegerLiteralGrammar : Prop :=
  (∀ ds : List Nat, ds ≠ [] → (∀ x ∈ ds, x < 10) →
    let text := ds.map fun x => Char.ofNat (48 + x)
    let value : Nat := ds.foldl (fun acc x => 10 * acc + x) 0
    parseInt text = some (value : Int) ∧ parseInt ('+' :: text) = some (value : Int) ∧
      parseInt ('-' :: text) = some (-(value : Int))) ∧
  (∀ (cs : List Char) (v : Int), parseInt cs = some v →
    ∃ ds : List Nat, ds ≠ [] ∧ (∀ x ∈ ds, x < 10) ∧
      ∃ sg ∈ [[], ['+'], ['-']], cs = sg ++ ds.map fun x => Char.ofNat (48 + x))

/-- A blank line makes no record, no trace entry and no error, and the assembly goes on with the next line; every other line
must parse, or the assembly ends in the `ParseError` of its number. (30_encoding.md section 7; the six blank characters are
D22, log 17; the number is D19, log 19.) -/
def Obligations.BlankLinesAreSkipped : Prop :=
  ∀ (s : State) (l : Line) (ls : List Line), s.activity = .assembling → s.lines = l :: ls →
    ((∀ ch ∈ l, ch ∈ [' ', '\t', '\r', '\n', '\x0b', '\x0c']) → step s = .next { s with lines := ls, lineNo := s.lineNo + 1 }) ∧
    ((∃ ch ∈ l, ch ∉ [' ', '\t', '\r', '\n', '\x0b', '\x0c']) → parseLine l = none → step s = .fault (.parseError s.lineNo))

/-- A line that parses adds the record of its four integers, D being 0 when the line has none, to the image and to the trace,
and the integers as written to the trace. (42_image_framing.md IMAGE_BUILD; the trace's values are decision D18, log 18.) -/
def Obligations.ParsedLineAddsItsRecord : Prop :=
  ∀ (s : State) (l : Line) (ls : List Line) (p : ParsedLine),
    s.activity = .assembling → s.lines = l :: ls → isBlank l = false → parseLine l = some p →
    ∃ d : Int, (p.d = none → d = 0) ∧ (∀ v, p.d = some v → d = v) ∧
      step s = .next { s with lines := ls, lineNo := s.lineNo + 1, asmImage := s.asmImage ++ recBytes (ENC p.a p.b p.c d),
                              asmTrace := s.asmTrace ++ [{ a := p.a, b := p.b, c := p.c, d := d,
                                                           encodedBytes := ENC p.a p.b p.c d }] }

/-- The first bad line ends the assembly with its own number, whatever stands behind it, and nothing else comes out.
(30_encoding.md section 7, 60_exceptions.md section 4; the number is decision D19, log 19.) -/
def Obligations.FirstBadLineEndsTheAssembly : Prop :=
  ∀ (before after : List Line) (l : Line),
    (∀ x ∈ before, isBlank x = true ∨ (parseLine x).isSome = true) → isBlank l = false → parseLine l = none →
    assembleProgram (before ++ l :: after) = .error (.parseError (before.length + 1))

/-- The steps of an assembly are `assembleProgram`: one step a line and one for the result, and the image and the trace, or
the error, are the function's. (42_image_framing.md IMAGE_BUILD; one step a line is the model's, log 26.) -/
def Obligations.StepsOfAnAssemblyAreAssembleProgram : Prop :=
  ∀ (ls : List Line) (s : State),
    (∀ f, assembleProgram ls = .error f → core.run (ls.length + 1) (startAssembly ls s) = .fault f) ∧
    (∀ image trace, assembleProgram ls = .ok (image, trace) →
      core.run (ls.length + 1) (startAssembly ls s) =
        .next { s with lines := [], lineNo := ls.length + 1, asmImage := image, asmTrace := trace, activity := .idle,
                       outputs := s.outputs ++ [.assembled image trace] })

/-- An assembled image has one record for each line that is not blank, in line order: every such line parses, its trace entry is
the integers `parseLine` gives for it (D being 0 when it has none), and an interpreter that cuts the image and decodes the
chunks gets those integers modulo the field widths. (42_image_framing.md sections IMAGE_BUILD and IMAGE_SPLIT, 41_decode.md,
marked derived there; negative values are D4, log 10; the trace's values are D18, log 18.) -/
def Obligations.AssembledImageDecodesToItsLines : Prop :=
  ∀ (ls : List Line) (image : List Byte) (trace : List TraceEntry), assembleProgram ls = .ok (image, trace) →
    ∃ ps : List ParsedLine,
      (ls.filter fun l => !isBlank l).map parseLine = ps.map some ∧
      trace.map (fun e => (e.a, e.b, e.c, e.d)) = ps.map (fun p => (p.a, p.b, p.c, p.d.getD 0)) ∧
      image.length = 11 * ps.length ∧
      (chunks image).map (fun r => (((DEC r).a.toNat : Int), ((DEC r).b.toNat : Int), ((DEC r).c.toNat : Int),
          ((DEC r).d.toNat : Int))) =
        ps.map fun p => (p.a % 2 ^ 4, p.b % 2 ^ 28, p.c % 2 ^ 32, p.d.getD 0 % 2 ^ 24)

/-! ## Invariant -/

/-- Reset: every cell 0, chunk 0, image and trace under construction empty (the values the spec gives), and the invariant
holds (70_reset_and_hazards.md section 1; the inputs' and the model's own fields' values are log 25). -/
def Obligations.ResetIsClean : Prop :=
  (∀ x, State.reset.memory.get x = 0) ∧ State.reset.k = 0 ∧ State.reset.asmImage = [] ∧ State.reset.asmTrace = [] ∧
    Inv State.reset

/-- Every step keeps the invariant: Memory stays canonical with no cell outside [0, 1024), the index does not pass the end of
the image, the image under construction is the records of the trace, each entry's record is the `ENC` of its integers, and line
numbers count from 1. (20_memory.md section 5, 10_state.md sections 3 and 8, 42_image_framing.md IMAGE_BUILD; the canonical
form is log 1, line numbers D19, log 19.) -/
def Obligations.EveryStepKeepsTheInvariant : Prop :=
  ∀ s t : State, Inv s → step s = .next t → Inv t
end

