-- ==== Sys2Proof/Laws/Codec.lean ====
section
/-! SUPPORT. The codec as arithmetic on integers: one lemma for each function, from which the round-trip laws follow by `omega`. -/

namespace Sys2Proof

theorem recBytes_eq (r : Record) : recBytes r = (List.range 11).map (recByte r) := rfl

@[simp] theorem recBytes_length (r : Record) : (recBytes r).length = 11 := rfl

theorem recByte_toNat (r : Record) (i : Nat) : (recByte r i).toNat = r.toNat / 2 ^ (8 * i) % 256 := by
  simp [recByte, BitVec.extractLsb'_toNat, Nat.shiftRight_eq_div_pow]

/-- Truncation is the non-negative remainder. -/
theorem trunc_toNat (n : Nat) (v : Int) : ((trunc n v).toNat : Int) = v % 2 ^ n := by
  rw [trunc, BitVec.toNat_ofInt]
  have : (0 : Int) ≤ v % ((2 ^ n : Nat) : Int) := Int.emod_nonneg _ (by positivity)
  rw [Int.toNat_of_nonneg this]
  simp

theorem trunc_natCast_toNat {n : Nat} (v : BitVec n) : trunc n (v.toNat : Int) = v := by
  simp [trunc]

/-- The layout as one sum (30_encoding.md R36). -/
theorem pack_toNat (f : Fields) :
    (pack f).toNat = f.a.toNat + f.b.toNat * 2 ^ 4 + f.c.toNat * 2 ^ 32 + f.d.toNat * 2 ^ 64 := by
  have ha := f.a.isLt
  have hb := f.b.isLt
  have hc := f.c.isLt
  simp only [pack, BitVec.toNat_append]
  rw [← Nat.shiftLeft_add_eq_or_of_lt hc, ← Nat.shiftLeft_add_eq_or_of_lt hb, ← Nat.shiftLeft_add_eq_or_of_lt ha]
  simp only [Nat.shiftLeft_eq]
  omega

theorem DEC_a_toNat (r : Record) : (DEC r).a.toNat = r.toNat % 2 ^ 4 := by
  simp [DEC, BitVec.extractLsb'_toNat]

theorem DEC_b_toNat (r : Record) : (DEC r).b.toNat = r.toNat / 2 ^ 4 % 2 ^ 28 := by
  simp [DEC, BitVec.extractLsb'_toNat, Nat.shiftRight_eq_div_pow]

theorem DEC_c_toNat (r : Record) : (DEC r).c.toNat = r.toNat / 2 ^ 32 % 2 ^ 32 := by
  simp [DEC, BitVec.extractLsb'_toNat, Nat.shiftRight_eq_div_pow]

theorem DEC_d_toNat (r : Record) : (DEC r).d.toNat = r.toNat / 2 ^ 64 % 2 ^ 24 := by
  simp [DEC, BitVec.extractLsb'_toNat, Nat.shiftRight_eq_div_pow]

theorem Fields.ext_toNat {f g : Fields} (ha : f.a.toNat = g.a.toNat) (hb : f.b.toNat = g.b.toNat)
    (hc : f.c.toNat = g.c.toNat) (hd : f.d.toNat = g.d.toNat) : f = g := by
  obtain ⟨a, b, c, d⟩ := f
  obtain ⟨a', b', c', d'⟩ := g
  simp only [Fields.mk.injEq]
  exact ⟨BitVec.eq_of_toNat_eq ha, BitVec.eq_of_toNat_eq hb, BitVec.eq_of_toNat_eq hc, BitVec.eq_of_toNat_eq hd⟩

/-! ## Bytes and integers -/

theorem leNat_lt (ys : List Byte) : leNat ys < 256 ^ ys.length := by
  induction ys with
  | nil => simp [leNat]
  | cons y ys ih =>
    have := y.isLt
    simp only [leNat, List.length_cons, pow_succ]
    omega

theorem recOfBytes_toNat {ys : List Byte} (h : ys.length = 11) : (recOfBytes ys).toNat = leNat ys := by
  have := leNat_lt ys
  rw [h] at this
  rw [recOfBytes, BitVec.toNat_ofNat, Nat.mod_eq_of_lt (by simpa using this)]

/-- Byte `i` of the integer of a byte sequence is the sequence's byte `i`. -/
theorem leNat_byte (ys : List Byte) (i : Nat) (h : i < ys.length) : leNat ys / 256 ^ i % 256 = (ys[i]).toNat := by
  induction ys generalizing i with
  | nil => simp at h
  | cons y ys ih =>
    have hy := y.isLt
    cases i with
    | zero => simp only [leNat, pow_zero, Nat.div_one, List.getElem_cons_zero]; omega
    | succ i =>
      simp only [List.length_cons, Nat.succ_lt_succ_iff] at h
      rw [List.getElem_cons_succ, ← ih i h, pow_succ', ← Nat.div_div_eq_div_mul, leNat]
      congr 2
      omega

theorem decSeq_of_length {ys : List Byte} (h : ys.length = 11) : decSeq ys = .ok (DEC (recOfBytes ys)) := if_pos h

theorem decSeq_of_length_ne {ys : List Byte} (h : ys.length ≠ 11) : decSeq ys = .error (.formatError ys.length) := if_neg h

end Sys2Proof
end

