-- ==== Sys2Proof/Laws/Memory.lean ====
section
/-! SUPPORT. Memory: what a read gives after each operation, and that every operation keeps the canonical form. -/

namespace Sys2Proof.Machine

theorem memCells_eq : Config.memCells = 1024 := rfl

/-! ## Reading after an operation -/

@[simp] theorem Memory.get_nil (x : Nat) : Memory.get [] x = 0 := rfl

theorem Memory.get_cons (y : Nat) (v : Word) (m : Memory) (x : Nat) :
    Memory.get ((y, v) :: m) x = if y = x then v else m.get x := rfl

theorem Memory.get_erase (m : Memory) (a x : Nat) : (m.erase a).get x = if x = a then 0 else m.get x := by
  induction m with
  | nil => simp [Memory.erase]
  | cons e m ih =>
    obtain ⟨y, v⟩ := e
    by_cases hy : y = a
    · rw [Memory.erase, if_pos hy, ih, Memory.get_cons]
      by_cases hx : x = a
      · simp [hx]
      · simp [hx, hy, Ne.symm hx]
    · rw [Memory.erase, if_neg hy, Memory.get_cons, Memory.get_cons, ih]
      by_cases hx : x = a
      · simp [hx, hy]
      · simp [hx]

/-- An inserted cell is read back, provided no other cell of its address is listed. -/
theorem Memory.get_insert (m : Memory) (a : Nat) (w : Word) (x : Nat) (h : ∀ e ∈ m, e.1 ≠ a) :
    (m.insert a w).get x = if x = a then w else m.get x := by
  induction m with
  | nil => simp [Memory.insert, Memory.get, eq_comm]
  | cons e m ih =>
    obtain ⟨y, v⟩ := e
    have hy : y ≠ a := h (y, v) (by simp)
    have ih := ih fun e he => h e (by simp [he])
    rw [Memory.insert]
    split
    · rw [Memory.get_cons]
      simp only [eq_comm]
    · rw [Memory.get_cons, Memory.get_cons, ih]
      by_cases hx : x = a
      · simp [hx, hy]
      · simp [hx]

theorem Memory.erase_ne (m : Memory) (a : Nat) : ∀ e ∈ m.erase a, e.1 ≠ a := by
  induction m with
  | nil => simp [Memory.erase]
  | cons e m ih =>
    obtain ⟨y, v⟩ := e
    rw [Memory.erase]
    split
    · exact ih
    · rintro e (_ | ⟨_, he⟩)
      · assumption
      · exact ih e he

/-- The two laws of a store: the cell written reads as written, every other cell as before. -/
theorem Memory.get_set (m : Memory) (a : Nat) (w : Word) (x : Nat) :
    (m.set a w).get x = if x = a then w else m.get x := by
  rw [Memory.set]
  split
  · next hw => rw [Memory.get_erase, hw]
  · rw [Memory.get_insert _ _ _ _ (Memory.erase_ne m a), Memory.get_erase]
    split <;> rfl

/-! ## The canonical form -/

@[simp] theorem Memory.wfFrom_nil (lo : Nat) : Memory.wfFrom lo [] = true := rfl

theorem Memory.wfFrom_cons (lo x : Nat) (v : Word) (m : Memory) :
    Memory.wfFrom lo ((x, v) :: m) = true ↔ lo ≤ x ∧ x < 1024 ∧ v ≠ 0 ∧ Memory.wfFrom (x + 1) m = true := by
  simp [Memory.wfFrom, and_assoc]

theorem Memory.wfFrom_le {lo lo' : Nat} (h : lo' ≤ lo) {m : Memory} (hm : Memory.wfFrom lo m = true) :
    Memory.wfFrom lo' m = true := by
  cases m with
  | nil => rfl
  | cons e m =>
    rw [Memory.wfFrom_cons] at hm ⊢
    exact ⟨by omega, hm.2⟩

theorem Memory.wfFrom_erase {lo : Nat} {m : Memory} (a : Nat) (hm : Memory.wfFrom lo m = true) :
    Memory.wfFrom lo (m.erase a) = true := by
  induction m generalizing lo with
  | nil => rfl
  | cons e m ih =>
    obtain ⟨y, v⟩ := e
    rw [Memory.wfFrom_cons] at hm
    rw [Memory.erase]
    split
    · exact Memory.wfFrom_le (by omega) (ih hm.2.2.2)
    · exact (Memory.wfFrom_cons ..).2 ⟨hm.1, hm.2.1, hm.2.2.1, ih hm.2.2.2⟩

theorem Memory.wfFrom_insert {lo : Nat} {m : Memory} {a : Nat} {w : Word} (hm : Memory.wfFrom lo m = true) (hlo : lo ≤ a)
    (ha : a < 1024) (hw : w ≠ 0) (hne : ∀ e ∈ m, e.1 ≠ a) : Memory.wfFrom lo (m.insert a w) = true := by
  induction m generalizing lo with
  | nil => exact (Memory.wfFrom_cons ..).2 ⟨hlo, ha, hw, rfl⟩
  | cons e m ih =>
    obtain ⟨y, v⟩ := e
    have hy : y ≠ a := hne (y, v) (by simp)
    have hm' := (Memory.wfFrom_cons ..).1 hm
    rw [Memory.insert]
    split
    · exact (Memory.wfFrom_cons ..).2 ⟨hlo, ha, hw, (Memory.wfFrom_cons ..).2 ⟨by omega, hm'.2⟩⟩
    · exact (Memory.wfFrom_cons ..).2
        ⟨hm'.1, hm'.2.1, hm'.2.2.1, ih hm'.2.2.2 (by omega) fun e he => hne e (by simp [he])⟩

/-- A store to an address that exists keeps the canonical form. -/
theorem Memory.wf_set {m : Memory} {a : Nat} (w : Word) (hm : m.wf = true) (ha : a < 1024) : (m.set a w).wf = true := by
  rw [Memory.wf] at *
  rw [Memory.set]
  split
  · exact Memory.wfFrom_erase a hm
  · next hw => exact Memory.wfFrom_insert (Memory.wfFrom_erase a hm) (Nat.zero_le a) ha hw (Memory.erase_ne m a)

theorem reset_memory_wf : State.reset.memory.wf = true := rfl

end Sys2Proof.Machine
end

