-- ==== Sys2Proof/Laws/State.lean ====
section
/-! SUPPORT. One lemma per field per update of State, so that no proof unfolds a record update. -/

namespace Sys2Proof.Machine

/-! ## `State.advance` -/

@[simp] theorem State.advance_memory (s : State) : s.advance.memory = s.memory := rfl
@[simp] theorem State.advance_k (s : State) : s.advance.k = s.k + 1 := rfl
@[simp] theorem State.advance_image (s : State) : s.advance.image = s.image := rfl
@[simp] theorem State.advance_rangeStart (s : State) : s.advance.rangeStart = s.rangeStart := rfl
@[simp] theorem State.advance_rangeEnd (s : State) : s.advance.rangeEnd = s.rangeEnd := rfl
@[simp] theorem State.advance_lines (s : State) : s.advance.lines = s.lines := rfl
@[simp] theorem State.advance_lineNo (s : State) : s.advance.lineNo = s.lineNo := rfl
@[simp] theorem State.advance_asmImage (s : State) : s.advance.asmImage = s.asmImage := rfl
@[simp] theorem State.advance_asmTrace (s : State) : s.advance.asmTrace = s.asmTrace := rfl
@[simp] theorem State.advance_activity (s : State) : s.advance.activity = s.activity := rfl
@[simp] theorem State.advance_requests (s : State) : s.advance.requests = s.requests := rfl
@[simp] theorem State.advance_outputs (s : State) : s.advance.outputs = s.outputs := rfl

/-! ## `State.emit` -/

@[simp] theorem State.emit_memory (s : State) (o : Output) : (s.emit o).memory = s.memory := rfl
@[simp] theorem State.emit_k (s : State) (o : Output) : (s.emit o).k = s.k := rfl
@[simp] theorem State.emit_image (s : State) (o : Output) : (s.emit o).image = s.image := rfl
@[simp] theorem State.emit_rangeStart (s : State) (o : Output) : (s.emit o).rangeStart = s.rangeStart := rfl
@[simp] theorem State.emit_rangeEnd (s : State) (o : Output) : (s.emit o).rangeEnd = s.rangeEnd := rfl
@[simp] theorem State.emit_lines (s : State) (o : Output) : (s.emit o).lines = s.lines := rfl
@[simp] theorem State.emit_lineNo (s : State) (o : Output) : (s.emit o).lineNo = s.lineNo := rfl
@[simp] theorem State.emit_asmImage (s : State) (o : Output) : (s.emit o).asmImage = s.asmImage := rfl
@[simp] theorem State.emit_asmTrace (s : State) (o : Output) : (s.emit o).asmTrace = s.asmTrace := rfl
@[simp] theorem State.emit_activity (s : State) (o : Output) : (s.emit o).activity = s.activity := rfl
@[simp] theorem State.emit_requests (s : State) (o : Output) : (s.emit o).requests = s.requests := rfl
@[simp] theorem State.emit_outputs (s : State) (o : Output) : (s.emit o).outputs = s.outputs ++ [o] := rfl

/-! ## `State.finish` -/

@[simp] theorem State.finish_memory (s : State) (o : Output) : (s.finish o).memory = s.memory := rfl
@[simp] theorem State.finish_k (s : State) (o : Output) : (s.finish o).k = s.k := rfl
@[simp] theorem State.finish_image (s : State) (o : Output) : (s.finish o).image = s.image := rfl
@[simp] theorem State.finish_rangeStart (s : State) (o : Output) : (s.finish o).rangeStart = s.rangeStart := rfl
@[simp] theorem State.finish_rangeEnd (s : State) (o : Output) : (s.finish o).rangeEnd = s.rangeEnd := rfl
@[simp] theorem State.finish_lines (s : State) (o : Output) : (s.finish o).lines = s.lines := rfl
@[simp] theorem State.finish_lineNo (s : State) (o : Output) : (s.finish o).lineNo = s.lineNo := rfl
@[simp] theorem State.finish_asmImage (s : State) (o : Output) : (s.finish o).asmImage = s.asmImage := rfl
@[simp] theorem State.finish_asmTrace (s : State) (o : Output) : (s.finish o).asmTrace = s.asmTrace := rfl
@[simp] theorem State.finish_activity (s : State) (o : Output) : (s.finish o).activity = .idle := rfl
@[simp] theorem State.finish_requests (s : State) (o : Output) : (s.finish o).requests = s.requests := rfl
@[simp] theorem State.finish_outputs (s : State) (o : Output) : (s.finish o).outputs = s.outputs ++ [o] := rfl

/-! ## `startAssembly` -/

@[simp] theorem startAssembly_memory (ls : List Line) (s : State) : (startAssembly ls s).memory = s.memory := rfl
@[simp] theorem startAssembly_k (ls : List Line) (s : State) : (startAssembly ls s).k = s.k := rfl
@[simp] theorem startAssembly_image (ls : List Line) (s : State) : (startAssembly ls s).image = s.image := rfl
@[simp] theorem startAssembly_rangeStart (ls : List Line) (s : State) : (startAssembly ls s).rangeStart = s.rangeStart := rfl
@[simp] theorem startAssembly_rangeEnd (ls : List Line) (s : State) : (startAssembly ls s).rangeEnd = s.rangeEnd := rfl
@[simp] theorem startAssembly_lines (ls : List Line) (s : State) : (startAssembly ls s).lines = ls := rfl
@[simp] theorem startAssembly_lineNo (ls : List Line) (s : State) : (startAssembly ls s).lineNo = 1 := rfl
@[simp] theorem startAssembly_asmImage (ls : List Line) (s : State) : (startAssembly ls s).asmImage = [] := rfl
@[simp] theorem startAssembly_asmTrace (ls : List Line) (s : State) : (startAssembly ls s).asmTrace = [] := rfl
@[simp] theorem startAssembly_activity (ls : List Line) (s : State) : (startAssembly ls s).activity = .assembling := rfl
@[simp] theorem startAssembly_requests (ls : List Line) (s : State) : (startAssembly ls s).requests = s.requests := rfl
@[simp] theorem startAssembly_outputs (ls : List Line) (s : State) : (startAssembly ls s).outputs = s.outputs := rfl

/-! ## `startRun` -/

@[simp] theorem startRun_memory (img : List Byte) (lo hi : Int) (s : State) : (startRun img lo hi s).memory = [] := rfl
@[simp] theorem startRun_k (img : List Byte) (lo hi : Int) (s : State) : (startRun img lo hi s).k = 0 := rfl
@[simp] theorem startRun_image (img : List Byte) (lo hi : Int) (s : State) : (startRun img lo hi s).image = img := rfl
@[simp] theorem startRun_rangeStart (img : List Byte) (lo hi : Int) (s : State) : (startRun img lo hi s).rangeStart = lo := rfl
@[simp] theorem startRun_rangeEnd (img : List Byte) (lo hi : Int) (s : State) : (startRun img lo hi s).rangeEnd = hi := rfl
@[simp] theorem startRun_lines (img : List Byte) (lo hi : Int) (s : State) : (startRun img lo hi s).lines = s.lines := rfl
@[simp] theorem startRun_lineNo (img : List Byte) (lo hi : Int) (s : State) : (startRun img lo hi s).lineNo = s.lineNo := rfl
@[simp] theorem startRun_asmImage (img : List Byte) (lo hi : Int) (s : State) : (startRun img lo hi s).asmImage = s.asmImage := rfl
@[simp] theorem startRun_asmTrace (img : List Byte) (lo hi : Int) (s : State) : (startRun img lo hi s).asmTrace = s.asmTrace := rfl
@[simp] theorem startRun_activity (img : List Byte) (lo hi : Int) (s : State) : (startRun img lo hi s).activity = .interpreting := rfl
@[simp] theorem startRun_requests (img : List Byte) (lo hi : Int) (s : State) : (startRun img lo hi s).requests = s.requests := rfl
@[simp] theorem startRun_outputs (img : List Byte) (lo hi : Int) (s : State) : (startRun img lo hi s).outputs = s.outputs := rfl

/-! ## `loadRecord` -/

@[simp] theorem loadRecord_memory (s : State) (r : Record) : (loadRecord s r).memory = s.memory := rfl
@[simp] theorem loadRecord_k (s : State) (r : Record) : (loadRecord s r).k = s.k := rfl
@[simp] theorem loadRecord_image (s : State) (r : Record) : (loadRecord s r).image = placeBytes s.image (Config.recBytes * s.k) (recBytes r) := rfl
@[simp] theorem loadRecord_rangeStart (s : State) (r : Record) : (loadRecord s r).rangeStart = s.rangeStart := rfl
@[simp] theorem loadRecord_rangeEnd (s : State) (r : Record) : (loadRecord s r).rangeEnd = s.rangeEnd := rfl
@[simp] theorem loadRecord_lines (s : State) (r : Record) : (loadRecord s r).lines = s.lines := rfl
@[simp] theorem loadRecord_lineNo (s : State) (r : Record) : (loadRecord s r).lineNo = s.lineNo := rfl
@[simp] theorem loadRecord_asmImage (s : State) (r : Record) : (loadRecord s r).asmImage = s.asmImage := rfl
@[simp] theorem loadRecord_asmTrace (s : State) (r : Record) : (loadRecord s r).asmTrace = s.asmTrace := rfl
@[simp] theorem loadRecord_activity (s : State) (r : Record) : (loadRecord s r).activity = .interpreting := rfl
@[simp] theorem loadRecord_requests (s : State) (r : Record) : (loadRecord s r).requests = s.requests := rfl
@[simp] theorem loadRecord_outputs (s : State) (r : Record) : (loadRecord s r).outputs = s.outputs := rfl

end Sys2Proof.Machine
end

