-- ==== Sys2Proof/Laws/Ops.lean ====
section
/-! SUPPORT. One lemma for each shared operation that says all it can do; then what an instruction of an image can do. -/

namespace Sys2Proof.Machine

/-! ## The primitives -/

theorem memRead_lt {s : State} {x : Nat} (h : x < 1024) : memRead s x = .ok (s.memory.get x) := if_pos h

theorem memRead_ge {s : State} {x : Nat} (h : 1024 ≤ x) : memRead s x = .error (.memoryFault s.k) := if_neg (by simpa using h)

theorem memWrite_lt {s : State} {x : Nat} {v : Word} (h : x < 1024) :
    memWrite s x v = .ok { s with memory := s.memory.set x v } := if_pos h

theorem memWrite_ge {s : State} {x : Nat} {v : Word} (h : 1024 ≤ x) : memWrite s x v = .error (.memoryFault s.k) :=
  if_neg (by simpa using h)

theorem readThen_lt {s : State} {x : Nat} {rest} (h : x < 1024) : readThen s x rest = rest (s.memory.get x) := by
  rw [readThen, memRead_lt h]

theorem readThen_ge {s : State} {x : Nat} {rest} (h : 1024 ≤ x) : readThen s x rest = .fault (.memoryFault s.k) := by
  rw [readThen, memRead_ge h]; rfl

theorem storeThenAdvance_lt {s : State} {x : Nat} {v : Word} (h : x < 1024) :
    storeThenAdvance s x v = .next { s with memory := s.memory.set x v, k := s.k + 1 } := by
  rw [storeThenAdvance, memWrite_lt h]; rfl

theorem storeThenAdvance_ge {s : State} {x : Nat} {v : Word} (h : 1024 ≤ x) :
    storeThenAdvance s x v = .fault (.memoryFault s.k) := by
  rw [storeThenAdvance, memWrite_ge h]; rfl

theorem noEffect_eq (s : State) : noEffect s = .next { s with k := s.k + 1 } := rfl

/-- What a read and the rest of an instruction can do. -/
theorem readThen_cases (s : State) (x : Nat) (rest) :
    (x < 1024 ∧ readThen s x rest = rest (s.memory.get x)) ∨ (1024 ≤ x ∧ readThen s x rest = .fault (.memoryFault s.k)) := by
  by_cases h : x < 1024
  · exact .inl ⟨h, readThen_lt h⟩
  · exact .inr ⟨by omega, readThen_ge (by omega)⟩

/-- What the write of an instruction can do. -/
theorem storeThenAdvance_cases (s : State) (x : Nat) (v : Word) :
    (x < 1024 ∧ storeThenAdvance s x v = .next { s with memory := s.memory.set x v, k := s.k + 1 }) ∨
    (1024 ≤ x ∧ storeThenAdvance s x v = .fault (.memoryFault s.k)) := by
  by_cases h : x < 1024
  · exact .inl ⟨h, storeThenAdvance_lt h⟩
  · exact .inr ⟨by omega, storeThenAdvance_ge (by omega)⟩

/-! ## The value an instruction writes -/

/-- The value an instruction of an image puts into its cell; 0 where it writes none. -/
def storeValue (m : Memory) : Instr → Word
  | .sti _ c _ => immediateC c
  | .cpy _ c _ => m.get (sourceC c)
  | .stx _ _ d => m.get (sourceD d)
  | .xor _ c d => xorCells (m.get (sourceC c)) (m.get (sourceD d))
  | _ => 0

/-- Memory after an instruction of an image that completes. -/
def memoryAfter (m : Memory) (i : Instr) : Memory :=
  match i.storeAddr with
  | some x => m.set x (storeValue m i)
  | none => m

theorem exec_of_inBounds {i : Instr} {s : State} (hi : i.inImage = true) (h : ∀ x ∈ i.addresses, x < 1024) :
    exec i s = .next { s with memory := memoryAfter s.memory i, k := s.k + 1 } := by
  cases i with
  | sti b c d =>
    simp only [Instr.addresses, List.mem_cons, List.not_mem_nil, or_false, forall_eq] at h
    exact storeThenAdvance_lt h
  | cpy b c d =>
    simp only [Instr.addresses, List.mem_cons, List.not_mem_nil, or_false, forall_eq_or_imp, forall_eq] at h
    simp only [exec, execCpy, readThen_lt h.1, storeThenAdvance_lt h.2, memoryAfter, Instr.storeAddr, storeValue]
  | stx b c d =>
    simp only [Instr.addresses, List.mem_cons, List.not_mem_nil, or_false, forall_eq_or_imp, forall_eq] at h
    simp only [exec, execStx, readThen_lt h.1, storeThenAdvance_lt h.2, memoryAfter, Instr.storeAddr, storeValue]
  | xor b c d =>
    simp only [Instr.addresses, List.mem_cons, List.not_mem_nil, or_false, forall_eq_or_imp, forall_eq] at h
    simp only [exec, execXor, readThen_lt h.1, readThen_lt h.2.1, storeThenAdvance_lt h.2.2, memoryAfter, Instr.storeAddr,
      storeValue]
  | enc a b c d => simp [Instr.inImage] at hi
  | dec seq => simp [Instr.inImage] at hi
  | _ => rfl

theorem exec_of_outOfBounds {i : Instr} {s : State} {x : Nat} (hx : x ∈ i.addresses) (h : 1024 ≤ x) :
    exec i s = .fault (.memoryFault s.k) := by
  cases i with
  | sti b c d =>
    simp only [Instr.addresses, List.mem_cons, List.not_mem_nil, or_false] at hx
    exact storeThenAdvance_ge (hx ▸ h)
  | cpy b c d =>
    simp only [Instr.addresses, List.mem_cons, List.not_mem_nil, or_false] at hx
    simp only [exec, execCpy]
    obtain ⟨hc, e⟩ | ⟨-, e⟩ := readThen_cases s (sourceC c) fun v => storeThenAdvance s (destAbsolute b) v
    · rw [e, storeThenAdvance_ge (by omega)]
    · exact e
  | stx b c d =>
    simp only [Instr.addresses, List.mem_cons, List.not_mem_nil, or_false] at hx
    simp only [exec, execStx]
    obtain ⟨hc, e⟩ | ⟨-, e⟩ := readThen_cases s (sourceD d) fun v => storeThenAdvance s (destIndexed b c) v
    · rw [e, storeThenAdvance_ge (by omega)]
    · exact e
  | xor b c d =>
    simp only [Instr.addresses, List.mem_cons, List.not_mem_nil, or_false] at hx
    simp only [exec, execXor]
    obtain ⟨hc, e⟩ | ⟨-, e⟩ := readThen_cases s (sourceC c) fun v1 =>
      readThen s (sourceD d) fun v2 => storeThenAdvance s (destAbsolute b) (xorCells v1 v2)
    · rw [e]
      obtain ⟨hd, e⟩ | ⟨-, e⟩ := readThen_cases s (sourceD d) fun v2 =>
        storeThenAdvance s (destAbsolute b) (xorCells (s.memory.get (sourceC c)) v2)
      · rw [e, storeThenAdvance_ge (by omega)]
      · exact e
    · exact e
  | _ => simp [Instr.addresses] at hx

/-- All an instruction of an image can do: complete, with every address in range, or fault with one out of range. -/
theorem exec_cases (i : Instr) (s : State) (hi : i.inImage = true) :
    ((∀ x ∈ i.addresses, x < 1024) ∧ exec i s = .next { s with memory := memoryAfter s.memory i, k := s.k + 1 }) ∨
    ((∃ x ∈ i.addresses, 1024 ≤ x) ∧ exec i s = .fault (.memoryFault s.k)) := by
  by_cases h : ∀ x ∈ i.addresses, x < 1024
  · exact .inl ⟨h, exec_of_inBounds hi h⟩
  · simp only [not_forall, not_lt] at h
    obtain ⟨x, hx, hge⟩ := h
    exact .inr ⟨⟨x, hx, hge⟩, exec_of_outOfBounds hx hge⟩

/-- All `ENC` can do. -/
theorem exec_enc (a b c d : Int) (s : State) :
    exec (.enc a b c d) s = .next { s with outputs := s.outputs ++ [.record (ENC a b c d)] } := rfl

/-- All `DEC` can do. -/
theorem exec_dec_cases (seq : List Byte) (s : State) :
    (seq.length = 11 ∧
      exec (.dec seq) s = .next { s with outputs := s.outputs ++ [.fields (DEC (recOfBytes seq))] }) ∨
    (seq.length ≠ 11 ∧ exec (.dec seq) s = .fault (.formatError seq.length)) := by
  by_cases h : seq.length = 11
  · exact .inl ⟨h, by simp [exec, execDec, decSeq, h, State.emit]⟩
  · exact .inr ⟨h, by simp [exec, execDec, decSeq, h, raise, faultOfReject]⟩

end Sys2Proof.Machine
end

