-- ==== Sys2Proof/Laws/PerInstr.lean ====
section
/-! SUPPORT. Statements about every instruction as syntax, one lemma per constructor. -/

namespace Sys2Proof.Laws.Opcode

/-- The number A of an instruction's record, as the opcode map of 30_encoding.md R42 lists it; a codec operation has none. -/
def number : Instr → Option Nat
  | .nop0 _ _ _ => some 0
  | .nop1 _ _ _ => some 1
  | .nop2 _ _ _ => some 2
  | .stx _ _ _ => some 3
  | .nop4 _ _ _ => some 4
  | .sti _ _ _ => some 5
  | .nop6 _ _ _ => some 6
  | .cpy _ _ _ => some 7
  | .nop8 _ _ _ => some 8
  | .xor _ _ _ => some 9
  | .nop10 _ _ _ => some 10
  | .nop11 _ _ _ => some 11
  | .nop12 _ _ _ => some 12
  | .nop13 _ _ _ => some 13
  | .nop14 _ _ _ => some 14
  | .nop15 _ _ _ => some 15
  | .enc _ _ _ _ => none
  | .dec _ => none

/-- An instruction stands in an image exactly when it has a record, and the low nibble of the record's byte 0 is its A. -/
def Statement (i : Instr) : Prop :=
  i.inImage = (encode i).isSome ∧ (encode i).map (fun r => (recByte r 0).toNat % 16) = number i

/-- The low nibble of byte 0 of a packed record is A, whatever B, C and D hold. -/
theorem lowNibble_pack (f : Fields) : (recByte (pack f) 0).toNat % 16 = f.a.toNat := by
  have := f.a.isLt
  rw [recByte_toNat, pack_toNat]
  omega

theorem nop0 (b : BitVec 28) (c : BitVec 32) (d : BitVec 24) : Statement (.nop0 b c d) :=
  ⟨rfl, congrArg some (lowNibble_pack _)⟩

theorem nop1 (b : BitVec 28) (c : BitVec 32) (d : BitVec 24) : Statement (.nop1 b c d) :=
  ⟨rfl, congrArg some (lowNibble_pack _)⟩

theorem nop2 (b : BitVec 28) (c : BitVec 32) (d : BitVec 24) : Statement (.nop2 b c d) :=
  ⟨rfl, congrArg some (lowNibble_pack _)⟩

theorem stx (b : BitVec 28) (c : BitVec 32) (d : BitVec 24) : Statement (.stx b c d) :=
  ⟨rfl, congrArg some (lowNibble_pack _)⟩

theorem nop4 (b : BitVec 28) (c : BitVec 32) (d : BitVec 24) : Statement (.nop4 b c d) :=
  ⟨rfl, congrArg some (lowNibble_pack _)⟩

theorem sti (b : BitVec 28) (c : BitVec 32) (d : BitVec 24) : Statement (.sti b c d) :=
  ⟨rfl, congrArg some (lowNibble_pack _)⟩

theorem nop6 (b : BitVec 28) (c : BitVec 32) (d : BitVec 24) : Statement (.nop6 b c d) :=
  ⟨rfl, congrArg some (lowNibble_pack _)⟩

theorem cpy (b : BitVec 28) (c : BitVec 32) (d : BitVec 24) : Statement (.cpy b c d) :=
  ⟨rfl, congrArg some (lowNibble_pack _)⟩

theorem nop8 (b : BitVec 28) (c : BitVec 32) (d : BitVec 24) : Statement (.nop8 b c d) :=
  ⟨rfl, congrArg some (lowNibble_pack _)⟩

theorem xor (b : BitVec 28) (c : BitVec 32) (d : BitVec 24) : Statement (.xor b c d) :=
  ⟨rfl, congrArg some (lowNibble_pack _)⟩

theorem nop10 (b : BitVec 28) (c : BitVec 32) (d : BitVec 24) : Statement (.nop10 b c d) :=
  ⟨rfl, congrArg some (lowNibble_pack _)⟩

theorem nop11 (b : BitVec 28) (c : BitVec 32) (d : BitVec 24) : Statement (.nop11 b c d) :=
  ⟨rfl, congrArg some (lowNibble_pack _)⟩

theorem nop12 (b : BitVec 28) (c : BitVec 32) (d : BitVec 24) : Statement (.nop12 b c d) :=
  ⟨rfl, congrArg some (lowNibble_pack _)⟩

theorem nop13 (b : BitVec 28) (c : BitVec 32) (d : BitVec 24) : Statement (.nop13 b c d) :=
  ⟨rfl, congrArg some (lowNibble_pack _)⟩

theorem nop14 (b : BitVec 28) (c : BitVec 32) (d : BitVec 24) : Statement (.nop14 b c d) :=
  ⟨rfl, congrArg some (lowNibble_pack _)⟩

theorem nop15 (b : BitVec 28) (c : BitVec 32) (d : BitVec 24) : Statement (.nop15 b c d) :=
  ⟨rfl, congrArg some (lowNibble_pack _)⟩

theorem enc (a b c d : Int) : Statement (.enc a b c d) := ⟨rfl, rfl⟩

theorem dec (seq : List Byte) : Statement (.dec seq) := ⟨rfl, rfl⟩

end Sys2Proof.Laws.Opcode
end

