-- ==== Sys2Proof/Laws/Step.lean ====
section
/-! SUPPORT. What each operation of assembler and interpreter can do, and from these all a step can do. -/

namespace Sys2Proof.Machine

/-! ## Decoded instructions stand in an image -/

theorem select_inImage (f : Fields) : (select f).inImage = true := by
  obtain ⟨a, b, c, d⟩ := f
  have h : ∀ a : BitVec 4, (select { a := a, b := b, c := c, d := d }).inImage = true := by
    intro a
    have : ∀ n (h : n < 16), ((opcodeMap[n]'h) b c d).inImage = true := by
      intro n h
      interval_cases n <;> rfl
    exact this a.toNat a.isLt
  exact h a

theorem decode_inImage (r : Record) : (decode r).inImage = true := select_inImage _

/-! ## Chunks and the report -/

theorem chunkAt_lt {image : List Byte} {k : Nat} (h : k < image.length / 11) :
    chunkAt image k = some (recOfBytes ((image.drop (11 * k)).take 11)) := if_pos h

theorem chunkAt_ge {image : List Byte} {k : Nat} (h : image.length / 11 ≤ k) : chunkAt image k = none := if_neg (by simpa [chunkCount] using h)

theorem chunk_length {image : List Byte} {k : Nat} (h : k < image.length / 11) :
    ((image.drop (11 * k)).take 11).length = 11 := by
  simp only [List.length_take, List.length_drop]
  omega

theorem reportPairs_length (m : Memory) (i x n : Nat) : (reportPairs m i x n).length = n := by
  induction n generalizing i x with
  | zero => rfl
  | succ n ih => simp [reportPairs, ih]

theorem reportPairs_getElem? (m : Memory) (i x n j : Nat) (h : j < n) :
    (reportPairs m i x n)[j]? = some (i + j, m.get (x + j)) := by
  induction n generalizing i x j with
  | zero => omega
  | succ n ih =>
    cases j with
    | zero => rfl
    | succ j =>
      rw [reportPairs, List.getElem?_cons_succ, ih (i + 1) (x + 1) j (by omega)]
      rw [show i + 1 + j = i + (j + 1) by omega, show x + 1 + j = x + (j + 1) by omega]

/-- All `reportSlice` can do. -/
theorem reportSlice_cases (m : Memory) (lo hi : Int) :
    ((0 ≤ lo ∧ lo ≤ hi ∧ hi ≤ 1024) ∧ reportSlice m lo hi = .ok (reportPairs m 0 lo.toNat (hi - lo).toNat)) ∨
    (¬ (0 ≤ lo ∧ lo ≤ hi ∧ hi ≤ 1024) ∧ reportSlice m lo hi = .error .rangeError) := by
  by_cases h : 0 ≤ lo ∧ lo ≤ hi ∧ hi ≤ 1024
  · exact .inl ⟨h, if_pos h⟩
  · exact .inr ⟨h, if_neg h⟩

/-- All `assembleLine` can do. -/
theorem assembleLine_cases (n : Nat) (l : Line) :
    (isBlank l = true ∧ assembleLine n l = .ok none) ∨
    (isBlank l = false ∧ ∃ p, parseLine l = some p ∧ assembleLine n l = .ok (some (traceEntry p))) ∨
    (isBlank l = false ∧ parseLine l = none ∧ assembleLine n l = .error (.parseError n)) := by
  rw [assembleLine]
  cases hb : isBlank l with
  | true => exact .inl ⟨rfl, rfl⟩
  | false =>
    cases hp : parseLine l with
    | none => exact .inr (.inr ⟨rfl, rfl, rfl⟩)
    | some p => exact .inr (.inl ⟨rfl, p, rfl, rfl⟩)

/-! ## One step of each operation -/

/-- All a step of a run can do: the effect of the decoded chunk, or the report, or the error of the report. -/
theorem stepRun_cases (s : State) :
    (s.k < s.image.length / 11 ∧ stepRun s = exec (decode (recOfBytes ((s.image.drop (11 * s.k)).take 11))) s) ∨
    (s.image.length / 11 ≤ s.k ∧ (0 ≤ s.rangeStart ∧ s.rangeStart ≤ s.rangeEnd ∧ s.rangeEnd ≤ 1024) ∧
      stepRun s = .next { s with activity := .idle, outputs := s.outputs ++
        [.report (reportPairs s.memory 0 s.rangeStart.toNat (s.rangeEnd - s.rangeStart).toNat)] }) ∨
    (s.image.length / 11 ≤ s.k ∧ ¬ (0 ≤ s.rangeStart ∧ s.rangeStart ≤ s.rangeEnd ∧ s.rangeEnd ≤ 1024) ∧
      stepRun s = .fault .rangeError) := by
  by_cases hk : s.k < s.image.length / 11
  · exact .inl ⟨hk, by rw [stepRun, chunkAt_lt hk]⟩
  · have hk : s.image.length / 11 ≤ s.k := by omega
    obtain ⟨hr, e⟩ | ⟨hr, e⟩ := reportSlice_cases s.memory s.rangeStart s.rangeEnd
    · exact .inr (.inl ⟨hk, hr, by rw [stepRun, chunkAt_ge hk]; simp only [finishRun, e]; rfl⟩)
    · exact .inr (.inr ⟨hk, hr, by rw [stepRun, chunkAt_ge hk]; simp only [finishRun, e]; rfl⟩)

/-- All an assembly that ends normally did: every line that is not blank parsed, and each added its entry and its record, in
line order. -/
theorem assembleFrom_ok (ls : List Line) : ∀ n image trace image' trace',
    assembleFrom n image trace ls = .ok (image', trace') →
    ∃ ps : List ParsedLine, trace' = trace ++ ps.map traceEntry ∧
      image' = image ++ (ps.map traceEntry).flatMap (fun e => recBytes e.encodedBytes) ∧
      (ls.filter fun l => !isBlank l).map parseLine = ps.map some := by
  induction ls with
  | nil =>
    intro n image trace image' trace' h
    cases h
    exact ⟨[], by simp, by simp, rfl⟩
  | cons l ls ih =>
    intro n image trace image' trace' h
    obtain ⟨hb, e⟩ | ⟨hb, p, hp, e⟩ | ⟨-, -, e⟩ := assembleLine_cases n l
    · simp only [assembleFrom, e] at h
      obtain ⟨ps, h1, h2, h3⟩ := ih _ _ _ _ _ h
      exact ⟨ps, h1, h2, by simpa [hb] using h3⟩
    · simp only [assembleFrom, e] at h
      obtain ⟨ps, h1, h2, h3⟩ := ih _ _ _ _ _ h
      exact ⟨p :: ps, by simp [h1], by simp [h2], by simp [hb, hp, h3]⟩
    · simp only [assembleFrom, e] at h; cases h

/-- All a step of an assembly can do: hand over the result, skip a blank line, add a parsed line, or fault. -/
theorem stepAssembly_cases (s : State) :
    (s.lines = [] ∧ stepAssembly s =
      .next { s with activity := .idle, outputs := s.outputs ++ [.assembled s.asmImage s.asmTrace] }) ∨
    ∃ l ls, s.lines = l :: ls ∧
      ((isBlank l = true ∧ stepAssembly s = .next { s with lines := ls, lineNo := s.lineNo + 1 }) ∨
       (isBlank l = false ∧ ∃ p, parseLine l = some p ∧ stepAssembly s =
          .next { s with lines := ls, lineNo := s.lineNo + 1,
                         asmImage := s.asmImage ++ recBytes (traceEntry p).encodedBytes,
                         asmTrace := s.asmTrace ++ [traceEntry p] }) ∨
       (isBlank l = false ∧ parseLine l = none ∧ stepAssembly s = .fault (.parseError s.lineNo))) := by
  obtain hl | ⟨l, ls, hl⟩ : s.lines = [] ∨ ∃ l ls, s.lines = l :: ls := by cases s.lines <;> simp
  · exact .inl ⟨hl, by simp only [stepAssembly, hl, State.finish]⟩
  · refine .inr ⟨l, ls, hl, ?_⟩
    obtain ⟨hb, e⟩ | ⟨hb, p, hp, e⟩ | ⟨hb, hp, e⟩ := assembleLine_cases s.lineNo l
    · exact .inl ⟨hb, by simp only [stepAssembly, hl, e]⟩
    · exact .inr (.inl ⟨hb, p, hp, by simp only [stepAssembly, hl, e]⟩)
    · exact .inr (.inr ⟨hb, hp, by simp only [stepAssembly, hl, e]; rfl⟩)

/-- All a step with no operation running can do. -/
theorem stepIdle_cases (s : State) :
    (s.requests = [] ∧ stepIdle s = .next s) ∨
    ∃ r rs, s.requests = r :: rs ∧
      ((∃ a b c d, r = .encode a b c d ∧ stepIdle s =
          .next { s with requests := rs, outputs := s.outputs ++ [.record (ENC a b c d)] }) ∨
       (∃ seq, r = .decode seq ∧ seq.length = 11 ∧ stepIdle s =
          .next { s with requests := rs, outputs := s.outputs ++ [.fields (DEC (recOfBytes seq))] }) ∨
       (∃ seq, r = .decode seq ∧ seq.length ≠ 11 ∧ stepIdle s = .fault (.formatError seq.length)) ∨
       (∃ ls, r = .assemble ls ∧ stepIdle s = .next (startAssembly ls { s with requests := rs })) ∨
       (∃ image lo hi, r = .interpret image lo hi ∧ stepIdle s = .next (startRun image lo hi { s with requests := rs }))) := by
  obtain hr | ⟨r, rs, hr⟩ : s.requests = [] ∨ ∃ r rs, s.requests = r :: rs := by cases s.requests <;> simp
  · exact .inl ⟨hr, by simp only [stepIdle, hr]⟩
  · refine .inr ⟨r, rs, hr, ?_⟩
    have e : stepIdle s = startRequest r { s with requests := rs } := by simp only [stepIdle, hr]
    cases r with
    | encode a b c d => exact .inl ⟨a, b, c, d, rfl, e.trans (exec_enc a b c d _)⟩
    | decode seq =>
      obtain ⟨h, e'⟩ | ⟨h, e'⟩ := exec_dec_cases seq { s with requests := rs }
      · exact .inr (.inl ⟨seq, rfl, h, e.trans e'⟩)
      · exact .inr (.inr (.inl ⟨seq, rfl, h, e.trans e'⟩))
    | assemble ls => exact .inr (.inr (.inr (.inl ⟨ls, rfl, e⟩)))
    | interpret image lo hi => exact .inr (.inr (.inr (.inr ⟨image, lo, hi, rfl, e⟩)))

theorem step_idle {s : State} (h : s.activity = .idle) : step s = stepIdle s := by simp only [step, h]

theorem step_assembling {s : State} (h : s.activity = .assembling) : step s = stepAssembly s := by simp only [step, h]

theorem step_interpreting {s : State} (h : s.activity = .interpreting) : step s = stepRun s := by simp only [step, h]

end Sys2Proof.Machine
end

