-- ==== Sys2Proof/Laws/Run.lean ====
section
/-! SUPPORT. Runs of several steps: what a run is when its first step is known. -/

namespace Sys2Proof.Machine

theorem run_zero (s : State) : core.run 0 s = .next s := rfl

theorem run_next {s t : State} (n : Nat) (h : step s = .next t) : core.run (n + 1) s = core.run n t := by
  have h : core.step s = .next t := h
  simp only [Host.Core.run, h]

theorem run_fault {s : State} {f : Fault} (n : Nat) (h : step s = .fault f) : core.run (n + 1) s = .fault f := by
  have h : core.step s = .fault f := h
  simp only [Host.Core.run, h]

theorem executeRecords_next {r : Record} {s t : State} (rs : List Record) (h : exec (decode r) s = .next t) :
    executeRecords (r :: rs) s = executeRecords rs t := by
  simp only [executeRecords, h]

theorem executeRecords_fault {r : Record} {s : State} {f : Fault} (rs : List Record) (h : exec (decode r) s = .fault f) :
    executeRecords (r :: rs) s = .fault f := by
  simp only [executeRecords, h]

end Sys2Proof.Machine
end

