-- ==== Sys2Proof/Tests/Slice0.lean ====
section
/-! SUPPORT. The model's own tests. Expected values are the spec's vectors (95_test_vectors.md, the corner-case tables of
40_encode.md and 41_decode.md, the examples of 43_uvm_opcodes.md), named in each comment; then, for every statement with
hypotheses, inputs that meet them. -/

namespace Sys2Proof.Tests

open Sys2Proof Sys2Proof.Machine

/-! ## Helpers -/

/-- The outcome is a next state with a property. -/
def nextIs (o : Host.Outcome State Fault Refusal) (p : State → Bool) : Bool :=
  match o with
  | .next t => p t
  | .fault _ => false
  | .refused _ => false

/-- The outcome is this fault. -/
def faultIs (o : Host.Outcome State Fault Refusal) (f : Fault) : Bool :=
  match o with
  | .next _ => false
  | .fault g => g == f
  | .refused _ => false

/-- The state after reset with some cells. -/
def withCells (m : Memory) : State := { State.reset with memory := m }

/-- A run at chunk `k` of an image, with a report range. -/
def running (image : List Byte) (k : Nat) (lo hi : Int) : State :=
  { State.reset with image := image, k := k, rangeStart := lo, rangeEnd := hi, activity := .interpreting }

/-- An assembly with lines left. -/
def assembling (ls : List Line) : State := { State.reset with lines := ls, activity := .assembling }

/-- The codec rejects the sequence as one of `len` bytes. -/
def rejectsAs (x : Except DecodeReject Instr) (len : Nat) : Bool :=
  match x with
  | .ok _ => false
  | .error (.formatError n) => n == len

/-- The decoder reads this instruction from the bytes. -/
def reads (ys : List Byte) (i : Instr) : Bool :=
  match decodeBytes ys with
  | .ok j => j == i
  | .error _ => false

/-! ## Well-formedness: a term each check refuses -/

theorem test_wf_dec_eleven : (Instr.dec [0xA5, 0, 0, 0, 0x2A, 0, 0, 0, 0, 0, 0]).wf = true := by decide
theorem test_wf_dec_ten_refused : (Instr.dec [0xA5, 0, 0, 0, 0x2A, 0, 0, 0, 0, 0]).wf = false := by decide
theorem test_wf_dec_twelve_refused : (Instr.dec [0xA5, 0, 0, 0, 0x2A, 0, 0, 0, 0, 0, 0, 0]).wf = false := by decide
theorem test_inImage_enc_refused : (Instr.enc 5 10 42 0).inImage = false := by decide
theorem test_inImage_dec_refused : (Instr.dec []).inImage = false := by decide

/-! ## Decoding: one word for every constructor, written out from 30_encoding.md R35

Byte 0 is `B[3:0]` then A, bytes 1 to 3 the rest of B, bytes 4 to 7 C, bytes 8 to 10 D, least significant byte first. -/

/-- R97's example is A = 12; here A = 0, B = 0xFFFFFFF, C and D all ones (T-NOP-1). -/
theorem test_decode_nop0 : reads [0xF0, 0xFF, 0xFF, 0xFF, 0xFF, 0xFF, 0xFF, 0xFF, 0xFF, 0xFF, 0xFF]
    (.nop0 268435455 4294967295 16777215) = true := by decide
/-- T-DEC-4. -/
theorem test_decode_nop1 : reads [0x01, 0x02, 0x03, 0x04, 0x05, 0x06, 0x07, 0x08, 0x09, 0x0A, 0x0B]
    (.nop1 4206624 134678021 723465) = true := by decide
/-- T-DEC-5. -/
theorem test_decode_nop2 : reads [0x12, 0x34, 0x56, 0x78, 0x9A, 0xBC, 0xDE, 0xF0, 0x12, 0x34, 0x56]
    (.nop2 126182209 4041129114 5649426) = true := by decide
/-- T-ENC-11: the nibble of B and the bytes of B, C, D are distinct. -/
theorem test_decode_stx : reads [0xF3, 0x3F, 0x00, 0x00, 0x00, 0x00, 0x00, 0x00, 0xFF, 0x03, 0x00]
    (.stx 1023 0 1023) = true := by decide
theorem test_decode_nop4 : reads [0x14, 0x00, 0x00, 0x00, 0x02, 0x00, 0x00, 0x00, 0x03, 0x00, 0x00]
    (.nop4 1 2 3) = true := by decide
/-- T-ENC-6. -/
theorem test_decode_sti : reads [0x75, 0x56, 0x34, 0x12, 0xEF, 0xCD, 0xAB, 0x89, 0x9B, 0x57, 0x13]
    (.sti 19088743 2309737967 1267611) = true := by decide
theorem test_decode_nop6 : reads [0x16, 0x00, 0x00, 0x00, 0x02, 0x00, 0x00, 0x00, 0x03, 0x00, 0x00]
    (.nop6 1 2 3) = true := by decide
/-- T-ENC-2. -/
theorem test_decode_cpy : reads [0x47, 0x01, 0x00, 0x00, 0x0A, 0x00, 0x00, 0x00, 0x00, 0x00, 0x00]
    (.cpy 20 10 0) = true := by decide
theorem test_decode_nop8 : reads [0x18, 0x00, 0x00, 0x00, 0x02, 0x00, 0x00, 0x00, 0x03, 0x00, 0x00]
    (.nop8 1 2 3) = true := by decide
/-- P4, line 3 with its D. -/
theorem test_decode_xor : reads [0x39, 0x00, 0x00, 0x00, 0x0A, 0x00, 0x00, 0x00, 0x00, 0x00, 0x80]
    (.xor 3 10 8388608) = true := by decide
/-- T-DEC-3. -/
theorem test_decode_nop10 : reads [0x2A, 0xF1, 0xDE, 0xBC, 0x9A, 0x78, 0x56, 0x34, 0xF0, 0xDE, 0xBC]
    (.nop10 198045458 878082202 12377840) = true := by decide
theorem test_decode_nop11 : reads [0x1B, 0x00, 0x00, 0x00, 0x02, 0x00, 0x00, 0x00, 0x03, 0x00, 0x00]
    (.nop11 1 2 3) = true := by decide
/-- The example of R97. -/
theorem test_decode_nop12 : reads [0x0C, 0x00, 0x00, 0x40, 0xFF, 0xFF, 0xFF, 0xFF, 0xFF, 0xFF, 0xFF]
    (.nop12 67108864 4294967295 16777215) = true := by decide
theorem test_decode_nop13 : reads [0x1D, 0x00, 0x00, 0x00, 0x02, 0x00, 0x00, 0x00, 0x03, 0x00, 0x00]
    (.nop13 1 2 3) = true := by decide
theorem test_decode_nop14 : reads [0x1E, 0x00, 0x00, 0x00, 0x02, 0x00, 0x00, 0x00, 0x03, 0x00, 0x00]
    (.nop14 1 2 3) = true := by decide
/-- T-DEC-8. -/
theorem test_decode_nop15 : reads [0xFF, 0xFF, 0xFF, 0xFF, 0xFF, 0xFF, 0xFF, 0xFF, 0xFF, 0xFF, 0xFF]
    (.nop15 268435455 4294967295 16777215) = true := by decide
/-- T-DEC-10, T-DEC-11, T-DEC-12: rejected by name, the first 11 bytes of 12 not decoded. -/
theorem test_decode_rejects_other_lengths :
    (rejectsAs (decodeBytes [0xA5, 0, 0, 0, 0x2A, 0, 0, 0, 0, 0]) 10 &&
      rejectsAs (decodeBytes [0xA5, 0, 0, 0, 0x2A, 0, 0, 0, 0, 0, 0, 0]) 12 && rejectsAs (decodeBytes []) 0) = true := by decide
/-- Encoding writes the word of T-ENC-6; the codec operations have none. -/
theorem test_encode_sti : (encode (.sti 19088743 2309737967 1267611)).map recBytes =
    some [0x75, 0x56, 0x34, 0x12, 0xEF, 0xCD, 0xAB, 0x89, 0x9B, 0x57, 0x13] := by decide
theorem test_encode_codec_operations_none : (encode (.enc 5 10 42 0), encode (.dec [])) = (none, none) := by decide
/-- The opcode table's numbering: bit 0 is the least significant bit of byte 0; no word is longer than a record. -/
theorem test_decodeTableWord : (decodeTableWord 88 0x13579B89ABCDEF12345675, decodeTableWord 8 0x47, decodeTableWord 96 5) =
    (some (.sti 19088743 2309737967 1267611), some (.cpy 4 0 0), none) := by decide
/-- A word loaded from outside is the first instruction after reset. -/
theorem test_withFetchWord_runs : nextIs (step (State.reset.withFetchWord 88 0x0000000000002A000000A5))
    (fun t => t.memory == [(10, 42)] && t.k == 1) = true := by decide

/-! ## The codec -/

/-- T-ENC-5 (every nibble distinct) and T-ENC-23, T-ENC-24, T-ENC-25 (negative operands). -/
theorem test_ENC_values : recBytes (ENC 10 198045458 878082202 12377840) =
    [0x2A, 0xF1, 0xDE, 0xBC, 0x9A, 0x78, 0x56, 0x34, 0xF0, 0xDE, 0xBC] := by decide
theorem test_ENC_negative : (recBytes (ENC (-1) (-1) (-1) (-1)), ENC (-11) 0 0 0, ENC 0 (-2) 0 0) =
    (List.replicate 11 0xFF, 5, 0xFFFFFFE0) := by decide
/-- T-ENC-14 to T-ENC-22: an over-wide operand is cut and leaks into no neighbour. -/
theorem test_ENC_truncates : (ENC 0 0 0 16777216, ENC 16 0 0 0, ENC 0 268435456 0 0, ENC 0 0 4294967296 0) =
    ((0, 0, 0, 0) : Record × Record × Record × Record) := by decide
/-- T-RT-5. -/
theorem test_DEC_of_ENC : DEC (ENC 21 268435459 4294967303 16777221) = { a := 5, b := 3, c := 7, d := 5 } := by decide
theorem test_exec_enc : nextIs (exec (.enc 21 10 42 0) State.reset)
    (fun t => t.outputs == [.record 0x2A000000A5] && t.k == 0) = true := by decide
/-- T-DEC-9: C is unsigned. -/
theorem test_exec_dec : nextIs (exec (.dec [0, 0, 0, 0, 0, 0, 0, 0x80, 0, 0, 0]) State.reset)
    (fun t => t.outputs == [.fields { a := 0, b := 0, c := 2147483648, d := 0 }]) = true := by decide

/-! ## The instructions -/

/-- T-STI-1 and T-STI-2: the last cell, the largest value, D ignored. -/
theorem test_sti_last_cell : nextIs (exec (.sti 1023 4294967295 16777215) State.reset)
    (fun t => t.memory == [(1023, 4294967295)] && t.k == 1) = true := by decide
/-- T-STI-3: storing 0 restores the reset value. -/
theorem test_sti_zero : nextIs (exec (.sti 10 0 0) (withCells [(10, 42)])) (fun t => t.memory == []) = true := by decide
/-- T-CPY-4: one level of indirection only. -/
theorem test_cpy_one_level : nextIs (exec (.cpy 20 3 0) (withCells [(3, 9), (9, 77)]))
    (fun t => t.memory == [(3, 9), (9, 77), (20, 9)]) = true := by decide
/-- T-CPY-3: a never-written cell copies 0. -/
theorem test_cpy_unwritten : nextIs (exec (.cpy 10 11 0) (withCells [(10, 42)])) (fun t => t.memory == []) = true := by decide
/-- T-STX-1: the destination is the sum, the source is `memory[D]`. -/
theorem test_stx_sum : nextIs (exec (.stx 2 3 1) (withCells [(0, 1), (1, 2)]))
    (fun t => t.memory == [(0, 1), (1, 2), (5, 2)]) = true := by decide
/-- T-MF-5: the sum 2^32 does not wrap to cell 0. -/
theorem test_stx_no_wrap : faultIs (exec (.stx 1 4294967295 0) State.reset) (.memoryFault 0) = true := by decide
/-- T-XOR-2: the full width. -/
theorem test_xor_width : nextIs (exec (.xor 3 1 2) (withCells [(1, 0xFFFFFFFF), (2, 0x0F0F0F0F)]))
    (fun t => t.memory == [(1, 0xFFFFFFFF), (2, 0x0F0F0F0F), (3, 0xF0F0F0F0)]) = true := by decide
/-- T-XOR-4: B = C, the old value is read before the write. -/
theorem test_xor_aliased : nextIs (exec (.xor 0 0 1) (withCells [(0, 12), (1, 10)]))
    (fun t => t.memory == [(0, 6), (1, 10)]) = true := by decide
/-- T-NOP-1, T-NOP-2: no no-op writes or faults, whatever its operands. -/
theorem test_nops : ([Instr.nop0 268435455 4294967295 16777215, .nop1 10 0 0, .nop2 10 0 0, .nop4 10 0 0, .nop6 10 0 0,
    .nop8 10 0 0, .nop10 10 0 0, .nop11 10 0 0, .nop12 1024 1024 1024, .nop13 10 0 0, .nop14 10 0 0,
    .nop15 268435455 4294967295 16777215].all fun i =>
      nextIs (exec i (withCells [(10, 42)])) fun t => t == { withCells [(10, 42)] with k := 1 }) = true := by decide

/-! ## Image, report, assembler -/

/-- T-IMG-5, with the 3 stray bytes of V4 behind. -/
theorem test_chunks : chunks [0xA5, 0, 0, 0, 0x2A, 0, 0, 0, 0, 0, 0, 0x47, 1, 0, 0, 0x0A, 0, 0, 0, 0, 0, 0, 5, 0, 0] =
    [ENC 5 10 42 0, ENC 7 20 10 0] := by decide
/-- T-REP-2. -/
theorem test_report : (match reportSlice [(5, 99), (6, 100)] 4 8 with
    | .ok ps => ps == [(0, 0), (1, 99), (2, 100), (3, 0)]
    | .error _ => false) = true := by decide
/-- T-ASM-2, T-ASM-3. -/
theorem test_parse_accepts : (parseLine "  A = 5 ,  B=10 ,C= 42  ".toList, parseLine "C=42,A=5,D=0,B=10".toList) =
    (some { a := 5, b := 10, c := 42, d := none }, some { a := 5, b := 10, c := 42, d := some 0 }) := by decide
/-- T-ASM-7 and R48: a sign is part of the value. -/
theorem test_parse_signs : parseLine "A=-11,B=+0,C=0".toList = some { a := -11, b := 0, c := 0, d := none } := by decide
/-- T-ASM-8 to T-ASM-17. -/
theorem test_parse_rejects : (["A=5,B=10", "A=5,B=10,C", "A=5,B=10,C=42,", "A=5,A=7,B=10,C=42", "A=5,B=10,C=x", "A=5,B=10,C=0x2A",
    "A=5,B=10,C=42,E=1", "a=5,B=10,C=42", "# comment", "A=5,B=10,C="].all fun l => parseLine l.toList == none) = true := by decide
/-- T-IMG-7: two records, two trace entries; the trace keeps the integers before truncation (P4, first line). -/
theorem test_assemble : (match assembleProgram ["A=21, B=10, C=42".toList, [], "   ".toList, "A=7,B=20,C=10".toList] with
    | .ok (image, trace) =>
      image == [0xA5, 0, 0, 0, 0x2A, 0, 0, 0, 0, 0, 0, 0x47, 1, 0, 0, 0x0A, 0, 0, 0, 0, 0, 0] &&
        trace.map (fun e => (e.a, e.b, e.c, e.d)) == [(21, 10, 42, 0), (7, 20, 10, 0)]
    | .error _ => false) = true := by decide
/-- T-ASM-18. -/
theorem test_assemble_error : (match assembleProgram ["A=5,B=10,C=1".toList, "A=5,B=10".toList, "A=1".toList] with
    | .ok _ => false
    | .error f => f == .parseError 2) = true := by decide

/-! ## Witnesses: inputs that meet the hypotheses of each statement -/

theorem witness_WrongLengthIsFormatError :
    faultIs (exec (.dec [0xA5, 0, 0, 0, 0x2A, 0, 0, 0, 0, 0]) State.reset) (.formatError 10) = true ∧
    faultIs (exec (.dec [0xA5, 0, 0, 0, 0x2A, 0, 0, 0, 0, 0, 0, 0]) State.reset) (.formatError 12) = true ∧
    nextIs (exec (.dec [0xA5, 0, 0, 0, 0x2A, 0, 0, 0, 0, 0, 0]) State.reset)
      (fun t => t.outputs == [.fields { a := 5, b := 10, c := 42, d := 0 }]) = true := by decide

theorem witness_BusReadingDoesNotMatter :
    32 ≤ 32 ∧ ENCBus 32 0xFFFFFFF5#32 0#32 0#32 0#32 = ENC (-11) 0 0 0 ∧ ENCBus 33 5#33 0#33 0x100000007#33 0#33 = ENC 5 0 7 0 := by
  decide

theorem witness_DecodeOfEncodeIsTheInstruction :
    (Instr.stx 268435455 0 16777215).inImage = true ∧ encode (.stx 268435455 0 16777215) = some 0xFFFFFF00000000FFFFFFF3 := by decide

theorem witness_EncodeOfDecodeIsTheBytes :
    reads [0x0F, 0, 0, 0, 0, 0, 0, 0, 0, 0, 0] (.nop15 0 0 0) = true ∧ rejectsAs (decodeBytes [0x0F]) 1 = true := by decide

theorem witness_MemReadIsBoundChecked :
    (match memRead (withCells [(1023, 7)]) 1023 with | .ok v => v == 7 | .error _ => false) = true ∧
    (match memRead (withCells [(1023, 7)]) 1024 with | .ok _ => false | .error f => f == .memoryFault 0) = true := by decide

theorem witness_MemWriteChangesOneCell :
    (match memWrite State.reset 1023 7 with | .ok t => t.memory == [(1023, 7)] | .error _ => false) = true ∧
    (match memWrite State.reset 1024 7 with | .ok _ => false | .error f => f == .memoryFault 0) = true := by decide

theorem witness_CanonicalMemoryIsUnique :
    Memory.wf [(5, 1), (9, 2)] = true ∧ (Memory.set (Memory.set [] 9 2) 5 1) = [(5, 1), (9, 2)] ∧ Memory.wf [(9, 2), (5, 1)] = false ∧
    Memory.wf [(5, 0)] = false ∧ Memory.wf [(1024, 1)] = false := by decide

theorem witness_StiStoresTheLiteral :
    (recByte 0xF5 0).toNat % 16 = 5 ∧ nextIs (exec (.sti 1023 1 0) State.reset) (fun t => t.memory == [(1023, 1)]) = true ∧
    faultIs (exec (.sti 1024 1 0) State.reset) (.memoryFault 0) = true := by decide

theorem witness_CpyCopiesOneCell :
    (recByte 0x07 0).toNat % 16 = 7 ∧ nextIs (exec (.cpy 1023 1023 0) State.reset) (fun t => t.k == 1) = true ∧
    faultIs (exec (.cpy 0 1024 0) State.reset) (.memoryFault 0) = true ∧
    faultIs (exec (.cpy 1024 0 0) State.reset) (.memoryFault 0) = true := by decide

theorem witness_StxStoresAtTheExactSum :
    (recByte 0x13 0).toNat % 16 = 3 ∧
    nextIs (exec (.stx 1000 23 1023) (withCells [(1023, 0), (5, 1)])) (fun t => t.k == 1) = true ∧
    faultIs (exec (.stx 1000 24 5) (withCells [(5, 77)])) (.memoryFault 0) = true ∧
    faultIs (exec (.stx 0 0 1024) State.reset) (.memoryFault 0) = true := by decide

theorem witness_XorCombinesTwoCells :
    (recByte 0x29 0).toNat % 16 = 9 ∧
    nextIs (exec (.xor 1023 1023 1023) (withCells [(1023, 5)])) (fun t => t.memory == []) = true ∧
    faultIs (exec (.xor 0 1024 0) State.reset) (.memoryFault 0) = true ∧
    faultIs (exec (.xor 0 0 1024) State.reset) (.memoryFault 0) = true ∧
    faultIs (exec (.xor 1024 0 0) State.reset) (.memoryFault 0) = true := by decide

theorem witness_NopOnlyMovesOn :
    (recByte 0x0C 0).toNat % 16 ∉ [3, 5, 7, 9] ∧ nextIs (exec (decode 0x0C) State.reset) (fun t => t.k == 1) = true ∧
    Instr.nop12 1024 1024 1024 ∈ [Instr.nop0 1024 1024 1024, .nop12 1024 1024 1024] := by decide

theorem witness_OutOfRangeAddressFaults :
    (Instr.stx 1 4294967295 0).inImage = true ∧ (4294967296 ∈ (Instr.stx 1 4294967295 0).addresses) ∧
    (∀ x ∈ (Instr.xor 1023 1023 1023).addresses, x < 1024) ∧ (∀ x ∈ (Instr.nop4 1024 1024 1024).addresses, x < 1024) := by decide

/-- The hypotheses of InstructionFrame and NoInstructionReadsTheIndex: an instruction that completes, storing or not. -/
theorem witness_InstructionFrame :
    (Instr.cpy 20 10 0).inImage = true ∧
    nextIs (exec (.cpy 20 10 0) (withCells [(10, 42)])) (fun t => t == { withCells [(10, 42), (20, 42)] with k := 1 }) = true ∧
    nextIs (exec (.nop1 20 10 0) (withCells [(10, 42)])) (fun t => t == { withCells [(10, 42)] with k := 1 }) = true ∧
    nextIs (exec (.cpy 20 10 0) { withCells [(10, 42)] with k := 7 })
      (fun t => t == { withCells [(10, 42), (20, 42)] with k := 8 }) = true := by decide

/-- Also the hypotheses of StepsOfARunAreTheExecuteLoop and EveryRunTerminates: a run at chunk 0. -/
theorem witness_StepRunsTheDecodedChunk :
    (running (recBytes 0x2A000000A5) 0 0 0).activity = .interpreting ∧ 0 < (recBytes 0x2A000000A5).length / 11 ∧
    nextIs (step (running (recBytes 0x2A000000A5) 0 0 0)) (fun t => t.memory == [(10, 42)] && t.k == 1) = true ∧
    nextIs (step (running (recBytes 0x2A000000A5 ++ [5]) 1 0 0)) (fun t => t.memory == [] && t.activity == .idle) = true := by decide

theorem witness_LoadedWordRunsNext :
    88 ≤ 88 ∧ decodeTableWord 88 0xFFFFFFFFFFFFFFFFFFFFFF = some (.nop15 268435455 4294967295 16777215) ∧
    decodeTableWord 4 0xFF = some (.nop15 0 0 0) := by decide

/-- V4: one whole record and 3 stray bytes, and 10 of them; at the last chunk and behind it. -/
theorem witness_TrailingBytesAreIgnored :
    (recBytes 0x2A000000A5).length % 11 = 0 ∧ ([5, 0, 0] : List Byte).length < 11 ∧ (List.replicate 10 (5 : Byte)).length < 11 ∧
    nextIs (step (running (recBytes 0x2A000000A5 ++ [5, 0, 0]) 0 0 0)) (fun t => t.memory == [(10, 42)]) = true ∧
    nextIs (step (running (recBytes 0x2A000000A5 ++ List.replicate 10 5) 1 0 0)) (fun t => t.activity == .idle) = true ∧
    faultIs (step (running (recBytes 0x4005 ++ [5, 0, 0]) 0 0 0)) (.memoryFault 0) = true := by decide

/-- Boundary ranges: T-REP-6, T-REP-7, T-REP-8, T-REP-9; also for RangeErrorExactlyOnBadRange. -/
theorem witness_RunEndsWithTheReport :
    nextIs (step (running [] 0 1024 1024)) (fun t => t.outputs == [.report []] && t.activity == .idle) = true ∧
    nextIs (step (running [1, 2, 3] 0 1023 1024)) (fun t => t.outputs == [.report [(0, 0)]]) = true ∧
    faultIs (step (running [] 0 7 5)) .rangeError = true ∧ faultIs (step (running [] 0 0 1025)) .rangeError = true ∧
    faultIs (step (running [] 0 (-1) 5)) .rangeError = true := by decide

theorem witness_EveryRunStartsFresh :
    nextIs (step { withCells [(10, 42)] with k := 9, requests := [.interpret [1, 2] 5 7, .decode []] })
      (fun t => t == { running [1, 2] 0 5 7 with requests := [.decode []] }) = true := by decide

theorem witness_EveryAssemblyStartsFresh :
    nextIs (step { State.reset with lineNo := 9, asmImage := [1], requests := [.assemble [[]]] })
      (fun t => t == assembling [[]]) = true := by decide

theorem witness_IdleStepServesTheOldestCall :
    nextIs (step { State.reset with requests := [.encode 5 10 42 0] })
      (fun t => t == { State.reset with outputs := [.record 0x2A000000A5] }) = true ∧
    faultIs (step { State.reset with requests := [.decode [1]] }) (.formatError 1) = true ∧
    nextIs (step State.reset) (fun t => t == State.reset) = true := by decide

theorem witness_HostCannotTouchARunningOperation :
    (running (recBytes 0) 0 0 0).activity ≠ .idle ∧ (assembling [[]]).activity ≠ .idle ∧
    nextIs (step { running (recBytes 0) 0 0 0 with requests := [.decode []] }) (fun t => t.requests == [.decode []]) = true ∧
    faultIs (step { running (recBytes 0x4005) 0 0 0 with requests := [.decode []] }) (.memoryFault 0) = true ∧
    nextIs (step { assembling [[]] with requests := [.decode []] }) (fun t => t.lineNo == 2) = true := by decide

/-- One step that ends in each of the four errors. -/
theorem witness_EachErrorHasItsOneCause :
    faultIs (step { State.reset with requests := [.decode []] }) (.formatError 0) = true ∧
    faultIs (step (running (recBytes 0 ++ recBytes 0x4005) 1 0 0)) (.memoryFault 1) = true ∧
    faultIs (step (assembling ["A=5,B=10".toList])) (.parseError 1) = true ∧
    faultIs (step (running [] 0 1 0)) .rangeError = true := by decide

/-- P2's kind: one store, one no-op with operands out of range, a legal range. -/
theorem witness_SafeImageRunsToItsReport : SafeImage (recBytes 0x2A000000A5 ++ recBytes 0xFFFFFFFFFFFFFFFFFFFFFF) := by
  have h : chunks (recBytes 0x2A000000A5 ++ recBytes 0xFFFFFFFFFFFFFFFFFFFFFF) = [0x2A000000A5, 0xFFFFFFFFFFFFFFFFFFFFFF] := by decide
  have h1 : decode 0x2A000000A5 = .sti 10 42 0 := by decide
  have h2 : decode 0xFFFFFFFFFFFFFFFFFFFFFF = .nop15 0xFFFFFFF 0xFFFFFFFF 0xFFFFFF := by decide
  intro r hr
  rw [h] at hr
  simp only [List.mem_cons, List.not_mem_nil, or_false] at hr
  obtain rfl | rfl := hr
  · rw [h1]; decide
  · rw [h2]; intro x hx; exact absurd hx List.not_mem_nil

theorem witness_CuttingAnImageGivesItsRecords :
    (List.replicate 10 (1 : Byte)).length < 11 ∧ chunks (recBytes 7 ++ List.replicate 10 1) = [7] := by decide

/-- A line for each of the five cases of R50, and one for none of them. -/
theorem witness_ParseFailsInExactlyTheseCases :
    (["A=5,B=10,C", "A=5,A=7,B=10,C=42", "A=5,B=10,C=x", "A=5,B=10,C=42,E=1", "A=5,B=10"].all
      fun l => parseLine l.toList == none) = true ∧ (parseLine "A=5,B=10,C=42".toList).isSome = true := by decide

theorem witness_ParsedValuesAreTheTokens :
    parseLine "A=5,B=10,C=42,D=7".toList = some { a := 5, b := 10, c := 42, d := some 7 } ∧
    parseLine "A=5,B=10,C=42".toList = some { a := 5, b := 10, c := 42, d := none } := by decide

theorem witness_KeyOrderDoesNotMatter :
    (splitCommas "A=5,B=10,C=42".toList).Perm (splitCommas "C=42,A=5,B=10".toList) := by decide

theorem witness_IntegerLiteralGrammar :
    parseInt "0042".toList = some 42 ∧ parseInt "-9".toList = some (-9) ∧ parseInt "+0".toList = some 0 ∧
    parseInt "--9".toList = none ∧ parseInt "".toList = none ∧ parseInt "+".toList = none := by decide

/-- A blank line is skipped; a comment is no comment (30_encoding.md section 7): it ends the assembly. -/
theorem witness_BlankLinesAreSkipped :
    nextIs (step (assembling [[' ', '\t']])) (fun t => t.lines == [] && t.lineNo == 2 && t.asmImage == []) = true ∧
    ' ' ∈ [' ', '\t', '\r', '\n', '\x0b', '\x0c'] ∧ '#' ∉ [' ', '\t', '\r', '\n', '\x0b', '\x0c'] ∧
    parseLine ['#', ' ', 't'] = none ∧ faultIs (step (assembling [['#', ' ', 't']])) (.parseError 1) = true := by
  refine ⟨?_, ?_, ?_, ?_, ?_⟩ <;> decide

theorem witness_ParsedLineAddsItsRecord :
    isBlank "A=21,B=10,C=42".toList = false ∧
    nextIs (step (assembling ["A=21,B=10,C=42".toList]))
      (fun t => t.asmImage == recBytes 0x2A000000A5 &&
        t.asmTrace == [{ a := 21, b := 10, c := 42, d := 0, encodedBytes := 0x2A000000A5 }]) = true ∧
    nextIs (step (assembling ["A=9,B=3,C=10,D=16777216".toList]))
      (fun t => t.asmTrace == [{ a := 9, b := 3, c := 10, d := 16777216, encodedBytes := 0xA00000039 }]) = true := by decide

theorem witness_FirstBadLineEndsTheAssembly :
    (∀ x ∈ ["A=5,B=10,C=1".toList, []], isBlank x = true ∨ (parseLine x).isSome = true) ∧ isBlank "A=5,B=10".toList = false ∧
    parseLine "A=5,B=10".toList = none := by decide

theorem witness_StepsOfAnAssemblyAreAssembleProgram :
    (match assembleProgram ["A=5,B=10,C=42".toList, []] with
      | .ok (image, trace) => image == recBytes 0x2A000000A5 && trace.length == 1
      | .error _ => false) = true ∧
    (match assembleProgram [['x']] with | .ok _ => false | .error f => f == .parseError 1) = true := by decide

/-- A blank line, an A above its width (30_encoding.md R53), and a D given and absent. -/
theorem witness_AssembledImageDecodesToItsLines :
    (match assembleProgram [[], "A=21,B=10,C=42".toList, "A=9,B=3,C=10,D=5".toList] with
      | .ok (image, trace) => (chunks image).map DEC == [{ a := 5, b := 10, c := 42, d := 0 }, { a := 9, b := 3, c := 10, d := 5 }] &&
          trace.length == 2
      | .error _ => false) = true := by decide

/-- Also the hypothesis of ResultsAreOnlyAdded: a step that completes, from a state with the invariant. -/
theorem witness_EveryStepKeepsTheInvariant :
    Inv (running (recBytes 0x2A000000A5) 0 0 0) ∧
    nextIs (step (running (recBytes 0x2A000000A5) 0 0 0)) (fun t => t.memory.wf && t.k == 1) = true := by
  refine ⟨⟨rfl, by decide, rfl, ?_, by decide⟩, by decide⟩
  intro e he
  cases he

end Sys2Proof.Tests
end

/-! PROOFS. Law 1 of the codec (41_decode.md R75): packing what `DEC` unpacked, and reading back the bytes of a record. -/

namespace Sys2Proof

/-! ## Fields and record -/

/-- `DEC` cuts a record into adjacent slices, and `pack` lays them side by side again. -/
@[simp] theorem pack_DEC (r : Record) : pack (DEC r) = r := by
  have hr := r.isLt
  apply BitVec.eq_of_toNat_eq
  rw [pack_toNat, DEC_a_toNat, DEC_b_toNat, DEC_c_toNat, DEC_d_toNat]
  omega

/-- Operands already in range are not cut. -/
theorem ENC_fields_toNat (f : Fields) : ENC f.a.toNat f.b.toNat f.c.toNat f.d.toNat = pack f := by
  simp only [ENC, trunc_natCast_toNat]

/-! ## Bytes and record -/

theorem leNat_append (xs ys : List Byte) : leNat (xs ++ ys) = leNat xs + 256 ^ xs.length * leNat ys := by
  induction xs with
  | nil => simp [leNat]
  | cons x xs ih =>
    simp only [List.cons_append, leNat, ih, List.length_cons, pow_succ]
    ring

/-- The first `n` bytes of a record are its low `8 * n` bits. -/
theorem leNat_map_recByte_range (r : Record) (n : Nat) :
    leNat ((List.range n).map (recByte r)) = r.toNat % 256 ^ n := by
  induction n with
  | zero => simp [leNat, Nat.mod_one]
  | succ n ih =>
    have hbyte : leNat [recByte r n] = r.toNat / 256 ^ n % 256 := by
      simp [leNat, recByte_toNat, pow_mul]
    rw [List.range_succ, List.map_append, List.map_singleton, leNat_append, ih, hbyte, List.length_map,
      List.length_range, Nat.mod_pow_succ]

@[simp] theorem recOfBytes_recBytes (r : Record) : recOfBytes (recBytes r) = r := by
  apply BitVec.eq_of_toNat_eq
  rw [recOfBytes_toNat (recBytes_length r), recBytes_eq, leNat_map_recByte_range]
  exact Nat.mod_eq_of_lt r.isLt

/-! ## Law 1 -/

/-- Settles O5: the four slices of `DEC` cover all 88 bits, used by the opcode or not, and so do the 11 bytes. -/
theorem encOfDecIsTheRecord : Obligations.EncOfDecIsTheRecord := by
  intro r
  exact ⟨(ENC_fields_toNat (DEC r)).trans (pack_DEC r), recOfBytes_recBytes r⟩

end Sys2Proof

/-! PROOFS. The instructions of a run (43_uvm_opcodes.md R91 to R97): Memory's two primitives, the three stores with an absolute
destination, and the no-ops. -/

namespace Sys2Proof.Machine

/-! ## Selection by the low nibble (30_encoding.md R42, R43) -/

theorem lowNibble_eq_DEC_a (r : Record) : (recByte r 0).toNat % 16 = (DEC r).a.toNat := by
  simpa only [pack_DEC] using Laws.Opcode.lowNibble_pack (DEC r)

/-- The low nibble of byte 0 is the index of the record's instruction in the opcode map. -/
theorem decode_of_lowNibble {r : Record} {n : Nat} (h : (recByte r 0).toNat % 16 = n) (hn : n < opcodeMap.length) :
    decode r = opcodeMap[n] (DEC r).b (DEC r).c (DEC r).d := by
  rw [lowNibble_eq_DEC_a] at h
  subst h
  rfl

theorem opcodeMap_addresses_eq_nil {n : Nat} (hn : n < opcodeMap.length) (hnop : n ∉ [3, 5, 7, 9]) (b : BitVec 28)
    (c : BitVec 32) (d : BitVec 24) : (opcodeMap[n] b c d).addresses = [] := by
  have hn16 : n < 16 := hn
  -- `hnop` refutes the four stores; the other twelve entries are the no-ops.
  interval_cases n <;> simp at hnop <;> rfl

/-! ## What an instruction does, by whether it stores -/

/-- An instruction of an image that stores at `a`, all addresses in range: cell `a` becomes the stored value, and every other
cell stays. -/
theorem exec_of_storeAddr {i : Instr} {s : State} {a : Nat} (hi : i.inImage = true) (ha : i.storeAddr = some a)
    (h : ∀ x ∈ i.addresses, x < 1024) :
    ∃ m : Memory, exec i s = .next { s with memory := m, k := s.k + 1 } ∧
      ∀ x, m.get x = if x = a then storeValue s.memory i else s.memory.get x := by
  refine ⟨memoryAfter s.memory i, exec_of_inBounds hi h, fun x => ?_⟩
  simp only [memoryAfter, ha, Memory.get_set]

/-- An instruction of an image that forms no address has no effect. -/
theorem exec_of_addresses_nil {i : Instr} (s : State) (hi : i.inImage = true) (h : i.addresses = []) :
    exec i s = .next { s with k := s.k + 1 } := by
  cases i with
  | sti | cpy | stx | xor => cases h
  | enc | dec => cases hi
  | _ => exact noEffect_eq s

/-! ## The primitives of Memory -/

/-- Settles O14: the address is compared with 1024, and the two sides of the comparison are the two answers. -/
theorem memReadIsBoundChecked : Obligations.MemReadIsBoundChecked :=
  fun _ _ => ⟨memRead_lt, memRead_ge⟩

/-- Settles O15, by the law of reading after a store. -/
theorem memWriteChangesOneCell : Obligations.MemWriteChangesOneCell := by
  refine fun s addr v => ⟨fun h => ⟨s.memory.set addr v, memWrite_lt h, ?_, fun x hx => ?_⟩, memWrite_ge⟩
  · rw [Memory.get_set, if_pos rfl]
  · rw [Memory.get_set, if_neg hx]

/-! ## The instructions -/

/-- Settles O17: the stored value of STI is its field C, and B is its one address. -/
theorem stiStoresTheLiteral : Obligations.StiStoresTheLiteral := by
  refine ⟨fun r h => decode_of_lowNibble h (by decide), fun b c d s => ⟨fun hb => ?_, fun hb => ?_, fun _ => rfl⟩⟩
  · exact exec_of_storeAddr (i := .sti b c d) rfl rfl (by simpa [Instr.addresses, destAbsolute] using hb)
  · exact exec_of_outOfBounds (x := destAbsolute b) (by simp [Instr.addresses]) hb

/-- Settles O18: the stored value of CPY is the old cell C; it addresses C and B, and the value is never an address. -/
theorem cpyCopiesOneCell : Obligations.CpyCopiesOneCell := by
  refine ⟨fun r h => decode_of_lowNibble h (by decide), fun b c d s => ⟨fun hc hb => ?_, ?_, fun _ => rfl⟩⟩
  · exact exec_of_storeAddr (i := .cpy b c d) rfl rfl (by simpa [Instr.addresses, sourceC, destAbsolute] using ⟨hc, hb⟩)
  · rintro (hc | hb)
    · exact exec_of_outOfBounds (x := sourceC c) (by simp [Instr.addresses]) hc
    · exact exec_of_outOfBounds (x := destAbsolute b) (by simp [Instr.addresses]) hb

/-- Settles O20: both sources are read from the old Memory, and the cells combine bit by bit; the addresses are C, D and B. -/
theorem xorCombinesTwoCells : Obligations.XorCombinesTwoCells := by
  refine ⟨fun r h => decode_of_lowNibble h (by decide), fun b c d s => ⟨fun hc hd hb => ?_, ?_⟩⟩
  · obtain ⟨m, hexec, hget⟩ := exec_of_storeAddr (i := .xor b c d) (s := s) rfl rfl
      (by simpa [Instr.addresses, sourceC, sourceD, destAbsolute] using ⟨hc, hd, hb⟩)
    refine ⟨m, hexec, fun x => ⟨fun hx j _ => ?_, fun hx => (hget x).trans (if_neg hx)⟩⟩
    have hval : m.get x = xorCells (s.memory.get c.toNat) (s.memory.get d.toNat) := (hget x).trans (if_pos hx)
    rw [hval, xorCells, BitVec.getLsbD_xor, Bool.bne_eq_xor]
  · rintro (hc | hd | hb)
    · exact exec_of_outOfBounds (x := sourceC c) (by simp [Instr.addresses]) hc
    · exact exec_of_outOfBounds (x := sourceD d) (by simp [Instr.addresses]) hd
    · exact exec_of_outOfBounds (x := destAbsolute b) (by simp [Instr.addresses]) hb

/-- Settles O21: a no-op forms no address, whether the low nibble selects it or it is named by its constructor. -/
theorem nopOnlyMovesOn : Obligations.NopOnlyMovesOn := by
  refine ⟨fun r s hnop => exec_of_addresses_nil s (decode_inImage r) ?_, fun b c d s i hi => ?_⟩
  · have hn : (recByte r 0).toNat % 16 < opcodeMap.length := Nat.mod_lt _ (by decide)
    rw [decode_of_lowNibble rfl hn]
    exact opcodeMap_addresses_eq_nil hn hnop ..
  · simp only [List.mem_cons, List.not_mem_nil, or_false] at hi
    obtain rfl | rfl | rfl | rfl | rfl | rfl | rfl | rfl | rfl | rfl | rfl | rfl := hi <;>
      exact exec_of_addresses_nil s rfl rfl

end Sys2Proof.Machine

/-! PROOFS. The range of the report (60_exceptions.md R114): which ranges `reportSlice` refuses. -/

namespace Sys2Proof.Machine

/-- Settles O29: `reportSlice` has two answers, and the refused ranges are the complement of the chain
`0 ≤ lo ≤ hi ≤ 1024`. -/
theorem rangeErrorExactlyOnBadRange : Obligations.RangeErrorExactlyOnBadRange := by
  intro m lo hi
  obtain ⟨hlegal, hslice⟩ | ⟨hbad, hslice⟩ := reportSlice_cases m lo hi
  · exact iff_of_false (by simp [hslice]) (by omega)
  · exact iff_of_true hslice (by omega)

end Sys2Proof.Machine

/-! PROOFS. The codec (30_encoding.md section 1; 40_encode.md R60 to R63; 41_decode.md R70 to R78): the layout, law 2, and what follows
from `pack` and `DEC` being inverse to each other. -/

namespace Sys2Proof

open Machine

/-! ## Fields and record -/

/-- The four fields occupy disjoint bit ranges, so each is read back whole. -/
@[simp] theorem DEC_pack (f : Fields) : DEC (pack f) = f := by
  have ha := f.a.isLt
  have hb := f.b.isLt
  have hc := f.c.isLt
  have hd := f.d.isLt
  apply Fields.ext_toNat
  · rw [DEC_a_toNat, pack_toNat]; omega
  · rw [DEC_b_toNat, pack_toNat]; omega
  · rw [DEC_c_toNat, pack_toNat]; omega
  · rw [DEC_d_toNat, pack_toNat]; omega

theorem pack_inj {f g : Fields} : pack f = pack g ↔ f = g :=
  (Function.LeftInverse.injective DEC_pack).eq_iff

/-- Law 2 on the fields themselves: `DEC` gives back the truncated operands. -/
theorem DEC_ENC (a b c d : Int) : DEC (ENC a b c d) = ⟨trunc 4 a, trunc 28 b, trunc 32 c, trunc 24 d⟩ := DEC_pack _

/-- Truncation identifies exactly the integers that agree modulo the width. -/
theorem trunc_eq_iff {n : Nat} {v w : Int} : trunc n v = trunc n w ↔ v % 2 ^ n = w % 2 ^ n := by
  rw [← BitVec.toNat_inj, ← Int.natCast_inj, trunc_toNat, trunc_toNat]

/-- The two readings of a bus differ by a multiple of `2 ^ xin`, which a narrower field does not see. -/
theorem trunc_toInt_eq_trunc_toNat {n xin : Nat} (h : n ≤ xin) (v : BitVec xin) :
    trunc n v.toInt = trunc n (v.toNat : Int) := by
  have hdvd : (2 ^ n : Int) ∣ ((2 ^ xin : Nat) : Int) := by exact_mod_cast Nat.pow_dvd_pow 2 h
  rw [trunc_eq_iff, BitVec.toInt_eq_toNat_bmod, ← Int.emod_emod_of_dvd _ hdvd, Int.bmod_emod, Int.emod_emod_of_dvd _ hdvd]

theorem trunc_toNat_eq_extractLsb' (n : Nat) {xin : Nat} (v : BitVec xin) :
    trunc n (v.toNat : Int) = v.extractLsb' 0 n := by
  apply BitVec.eq_of_toNat_eq
  simp [trunc, BitVec.extractLsb'_toNat]

/-! ## Bytes and record -/

theorem recBytes_getElem? (r : Record) {i : Nat} (h : i < 11) : (recBytes r)[i]? = some (recByte r i) := by
  simp [recBytes_eq, h]

/-- The 11 bytes a record is made of are its bytes. -/
theorem recBytes_recOfBytes {ys : List Byte} (h : ys.length = 11) : recBytes (recOfBytes ys) = ys := by
  apply List.ext_getElem (by rw [recBytes_length, h])
  intro i hi hys
  apply BitVec.eq_of_toNat_eq
  simp only [recBytes_eq, List.getElem_map, List.getElem_range]
  rw [recByte_toNat, recOfBytes_toNat h, ← leNat_byte ys i hys, pow_mul]
  rfl

/-! ## The codec's statements -/

/-- Settles O1: the packed record is one sum of the truncated operands, and its bytes are the digits of that sum to base 256. -/
theorem encPacksTruncatedOperands : Obligations.EncPacksTruncatedOperands := by
  intro a b c d s
  refine ⟨ENC a b c d, exec_enc a b c d s, ?_, recBytes_length _, fun i hi => ?_⟩
  · rw [ENC, pack_toNat]
    push_cast
    simp only [trunc_toNat]
    norm_num
  · rw [recBytes_getElem? _ hi, Option.map_some, recByte_toNat]

/-- Settles O2: each byte is a digit, to base 256, of the sum of the fields at their places. -/
theorem packedBytesFollowLayout : Obligations.PackedBytesFollowLayout := by
  intro f
  have ha := f.a.isLt
  have hb := f.b.isLt
  have hc := f.c.isLt
  have hd := f.d.isLt
  simp only [recBytes, List.map_cons, List.map_nil, recByte_toNat, pack_toNat, List.cons.injEq, and_true]
  refine ⟨?_, ?_, ?_, ?_, ?_, ?_, ?_, ?_, ?_, ?_, ?_⟩ <;> omega

/-- Settles O3: the fields are slices of the integer the eleven bytes stand for. -/
theorem decUnpacksElevenBytes : Obligations.DecUnpacksElevenBytes := by
  intro y0 y1 y2 y3 y4 y5 y6 y7 y8 y9 y10 s
  have := y0.isLt; have := y1.isLt; have := y2.isLt; have := y3.isLt; have := y4.isLt; have := y5.isLt
  have := y6.isLt; have := y7.isLt; have := y8.isLt; have := y9.isLt; have := y10.isLt
  have hlen : [y0, y1, y2, y3, y4, y5, y6, y7, y8, y9, y10].length = 11 := rfl
  refine ⟨DEC (recOfBytes [y0, y1, y2, y3, y4, y5, y6, y7, y8, y9, y10]), rfl, ?_, ?_, ?_, ?_⟩
  · rw [DEC_a_toNat, recOfBytes_toNat hlen]; simp only [leNat]; omega
  · rw [DEC_b_toNat, recOfBytes_toNat hlen]; simp only [leNat]; omega
  · rw [DEC_c_toNat, recOfBytes_toNat hlen]; simp only [leNat]; omega
  · rw [DEC_d_toNat, recOfBytes_toNat hlen]; simp only [leNat]; omega

/-- Settles O4: `DEC_SEQ` compares the length with 11, and eleven bytes are the bytes of the record they stand for. -/
theorem wrongLengthIsFormatError : Obligations.WrongLengthIsFormatError := by
  intro seq s
  obtain ⟨hlen, hexec⟩ | ⟨hlen, hexec⟩ := exec_dec_cases seq s
  · exact ⟨fun hne => absurd hlen hne, fun _ => ⟨recOfBytes seq, recBytes_recOfBytes hlen, hexec⟩⟩
  · exact ⟨fun _ => hexec, fun heq => absurd heq hlen⟩

/-- Settles O6: `DEC` gives back the truncated operands, and truncation is the non-negative remainder. -/
theorem decOfEncReducesEachOperand : Obligations.DecOfEncReducesEachOperand := by
  intro a b c d
  rw [DEC_ENC]
  exact ⟨trunc_toNat .., trunc_toNat .., trunc_toNat .., trunc_toNat ..⟩

/-- Settles O7: `pack` is injective, so equal records are equal truncations; a record is the `ENC` of its own fields. -/
theorem encEqualIffOperandsCongruent : Obligations.EncEqualIffOperandsCongruent := by
  refine ⟨fun a b c d a2 b2 c2 d2 => ?_, fun r => ?_⟩
  · simp only [ENC, pack_inj, Fields.mk.injEq, trunc_eq_iff]
  · exact ⟨_, _, _, _, (DEC r).a.isLt, (DEC r).b.isLt, (DEC r).c.isLt, (DEC r).d.isLt,
      (ENC_fields_toNat (DEC r)).trans (pack_DEC r)⟩

/-- Settles O8: `pack` is the inverse of `DEC` on both sides. -/
theorem decIsABijection : Obligations.DecIsABijection :=
  Function.bijective_iff_has_inverse.2 ⟨pack, pack_DEC, DEC_pack⟩

/-- Settles O9: every field is at most 32 bits wide, so none sees in which of the two ways its bus is read. -/
theorem busReadingDoesNotMatter : Obligations.BusReadingDoesNotMatter := by
  refine ⟨fun xin h a b c d => ?_, fun a b c d => ?_⟩
  · simp only [ENCBus, ENC]
    rw [trunc_toInt_eq_trunc_toNat (by omega) a, trunc_toInt_eq_trunc_toNat (by omega) b,
      trunc_toInt_eq_trunc_toNat (by omega) c, trunc_toInt_eq_trunc_toNat (by omega) d]
  · simp only [ENCBus, DEC_ENC, trunc_toNat_eq_extractLsb', BitVec.extractLsb'_eq_self]

end Sys2Proof

/-! PROOFS. Decoding and encoding instructions (30_encoding.md section 5): the opcode map and the fields of an instruction are inverse to
each other, so the round trips of the codec carry over to instructions. -/

namespace Sys2Proof

open Machine

/-! ## Selecting by the fields of an instruction -/

theorem select_of_fields {i : Instr} {f : Fields} (h : i.fields = some f) : select f = i := by
  cases i with
  | enc | dec => cases h
  | _ => cases h; rfl

/-- Entry `n` of the opcode map is the instruction whose field A is `n`. -/
theorem opcodeMap_fields {n : Nat} (hn : n < opcodeMap.length) (b : BitVec 28) (c : BitVec 32) (d : BitVec 24) :
    (opcodeMap[n] b c d).fields = some { a := BitVec.ofNat 4 n, b := b, c := c, d := d } := by
  have hn16 : n < 16 := hn
  interval_cases n <;> rfl

@[simp] theorem fields_select (f : Fields) : (select f).fields = some f := by
  have h := opcodeMap_fields f.a.isLt f.b f.c f.d
  rwa [BitVec.ofNat_toNat, BitVec.setWidth_eq] at h

theorem fields_isSome {i : Instr} (hi : i.inImage = true) : ∃ f, i.fields = some f := by
  cases i with
  | enc | dec => cases hi
  | _ => exact ⟨_, rfl⟩

theorem encode_decode (r : Record) : encode (decode r) = some r := by
  rw [encode, decode, fields_select, Option.map_some, pack_DEC]

theorem decodeBytes_of_length {ys : List Byte} (h : ys.length = 11) : decodeBytes ys = .ok (decode (recOfBytes ys)) := by
  rw [decodeBytes, decSeq_of_length h, decode]

theorem decodeBytes_of_length_ne {ys : List Byte} (h : ys.length ≠ 11) :
    decodeBytes ys = .error (.formatError ys.length) := by
  rw [decodeBytes, decSeq_of_length_ne h]

@[simp] theorem decodeBytes_recBytes (r : Record) : decodeBytes (recBytes r) = .ok (decode r) := by
  rw [decodeBytes_of_length (recBytes_length r), recOfBytes_recBytes]

/-! ## The round trips -/

/-- Settles O10: the record of an instruction is its packed fields, `DEC` gives the fields back, and they select the
instruction. -/
theorem decodeOfEncodeIsTheInstruction : Obligations.DecodeOfEncodeIsTheInstruction := by
  intro i hi
  obtain ⟨f, hf⟩ := fields_isSome hi
  have hdecode : decode (pack f) = i := by rw [decode, DEC_pack, select_of_fields hf]
  exact ⟨pack f, by rw [encode, hf, Option.map_some], hdecode, by rw [decodeBytes_recBytes, hdecode]⟩

/-- Settles O11: the selected instruction keeps all four fields, so its record is the one that was decoded. -/
theorem encodeOfDecodeIsTheBytes : Obligations.EncodeOfDecodeIsTheBytes := by
  refine fun ys => ⟨fun h => ?_, decodeBytes_of_length_ne⟩
  refine ⟨_, decodeBytes_of_length h, decode_inImage _, ?_⟩
  rw [encode_decode, Option.map_some, recBytes_recOfBytes h]

/-! ## The low nibble -/

/-- The low nibble is the index of the decoded instruction in the opcode map, and no other index has that instruction. -/
theorem lowNibble_eq_iff {r : Record} {n : Nat} (hn : n < opcodeMap.length) :
    (recByte r 0).toNat % 16 = n ↔ decode r = opcodeMap[n] (DEC r).b (DEC r).c (DEC r).d := by
  refine ⟨fun h => decode_of_lowNibble h hn, fun h => ?_⟩
  have hfields : some (DEC r) = some { DEC r with a := BitVec.ofNat 4 n } := by
    rw [← opcodeMap_fields hn, ← h, decode, fields_select]
  have ha : (DEC r).a = BitVec.ofNat 4 n := congrArg Fields.a (Option.some.inj hfields)
  rw [lowNibble_eq_DEC_a, ha, BitVec.toNat_ofNat]
  exact Nat.mod_eq_of_lt hn

/-- Settles O12: the sixteen equivalences are the entries of the opcode map, one by one. -/
theorem lowNibbleSelectsTheInstruction : Obligations.LowNibbleSelectsTheInstruction := by
  rintro r n rfl
  refine ⟨?_, ?_, ?_, ?_, ?_, ?_, ?_, ?_, ?_, ?_, ?_, ?_, ?_, ?_, ?_, ?_, ?_⟩
  · rw [lowNibble_eq_DEC_a, DEC_a_toNat]
    rfl
  all_goals exact lowNibble_eq_iff (by decide)

/-- Settles O13: each word is the bytes of a record whose fields select the instruction. -/
theorem sampleWordsDecode : Obligations.SampleWordsDecode :=
  ⟨rfl, rfl, rfl, rfl, rfl⟩

/-! ## A word of the opcode table -/

theorem tableRecord_toNat {nbits : Nat} (h : nbits ≤ 88) (w : Nat) : (tableRecord nbits w).toNat = w % 2 ^ nbits := by
  have hlt : w % 2 ^ nbits < 2 ^ 88 :=
    (Nat.mod_lt w (by positivity)).trans_le (Nat.pow_le_pow_right (by decide) h)
  rw [tableRecord, BitVec.toNat_ofNat, Nat.mod_eq_of_lt hlt]

theorem decodeTableWord_eq {nbits : Nat} (h : nbits ≤ 88) (w : Nat) :
    decodeTableWord nbits w = some (decode (tableRecord nbits w)) := by
  simp only [decodeTableWord, decodeBytes_recBytes, if_pos h]

end Sys2Proof

/-! PROOFS. Memory's canonical form, and the statements about every instruction of an image (43_uvm_opcodes.md section 4): from the two
outcomes `exec_cases` lists. -/

namespace Sys2Proof.Machine

/-! ## The canonical form is unique -/

/-- Below its lower bound a canonical memory lists nothing. -/
theorem Memory.get_of_lt {lo x : Nat} {m : Memory} (hm : Memory.wfFrom lo m = true) (hx : x < lo) : m.get x = 0 := by
  induction m generalizing lo with
  | nil => rfl
  | cons e m ih =>
    obtain ⟨y, v⟩ := e
    obtain ⟨hlo, -, -, hm⟩ := (Memory.wfFrom_cons ..).1 hm
    rw [Memory.get_cons, if_neg (by omega), ih hm (by omega)]

/-- The first listed address of a canonical memory is the least one that reads other than 0. -/
theorem Memory.head_le_of_get_eq {lo x y : Nat} {v w : Word} {m m' : Memory} (hm : Memory.wfFrom lo ((x, v) :: m) = true)
    (hm' : Memory.wfFrom y ((y, w) :: m') = true) (hget : Memory.get ((x, v) :: m) x = Memory.get ((y, w) :: m') x) :
    y ≤ x := by
  obtain ⟨-, -, hv, -⟩ := (Memory.wfFrom_cons ..).1 hm
  by_contra hlt
  rw [Memory.get_of_lt hm' (by omega), Memory.get_cons, if_pos rfl] at hget
  exact hv hget

theorem Memory.wfFrom_head {lo x : Nat} {v : Word} {m : Memory} (hm : Memory.wfFrom lo ((x, v) :: m) = true) :
    Memory.wfFrom x ((x, v) :: m) = true := by
  rw [Memory.wfFrom_cons] at hm ⊢
  exact ⟨le_rfl, hm.2⟩

theorem Memory.eq_nil_of_get_eq_zero {lo : Nat} {m : Memory} (hm : Memory.wfFrom lo m = true) (h : ∀ x, m.get x = 0) :
    m = [] := by
  cases m with
  | nil => rfl
  | cons e m =>
    obtain ⟨x, v⟩ := e
    obtain ⟨-, -, hv, -⟩ := (Memory.wfFrom_cons ..).1 hm
    have hx := h x
    rw [Memory.get_cons, if_pos rfl] at hx
    exact absurd hx hv

theorem Memory.eq_of_get_eq {m1 m2 : Memory} {lo1 lo2 : Nat} (h1 : Memory.wfFrom lo1 m1 = true)
    (h2 : Memory.wfFrom lo2 m2 = true) (hget : ∀ x, m1.get x = m2.get x) : m1 = m2 := by
  induction m1 generalizing m2 lo1 lo2 with
  | nil => exact (Memory.eq_nil_of_get_eq_zero h2 fun x => (hget x).symm).symm
  | cons e1 m1 ih =>
    cases m2 with
    | nil => exact Memory.eq_nil_of_get_eq_zero h1 hget
    | cons e2 m2 =>
      obtain ⟨x, v⟩ := e1
      obtain ⟨y, w⟩ := e2
      obtain rfl : x = y := le_antisymm
        (Memory.head_le_of_get_eq h2 (Memory.wfFrom_head h1) (hget y).symm)
        (Memory.head_le_of_get_eq h1 (Memory.wfFrom_head h2) (hget x))
      obtain ⟨-, -, -, h1⟩ := (Memory.wfFrom_cons ..).1 h1
      obtain ⟨-, -, -, h2⟩ := (Memory.wfFrom_cons ..).1 h2
      have hvw : v = w := by simpa [Memory.get_cons] using hget x
      have htail : ∀ z, Memory.get m1 z = Memory.get m2 z := by
        intro z
        by_cases hz : x = z
        · rw [Memory.get_of_lt h1 (by omega), Memory.get_of_lt h2 (by omega)]
        · simpa [Memory.get_cons, hz] using hget z
      rw [hvw, ih h1 h2 htail]

/-- Settles O16: the first listed addresses of the two lists agree, so the lists agree cell by cell. -/
theorem canonicalMemoryIsUnique : Obligations.CanonicalMemoryIsUnique :=
  fun _ _ => Memory.eq_of_get_eq

/-! ## What an instruction of an image leaves -/

theorem storeAddr_mem_addresses {i : Instr} {x : Nat} (h : i.storeAddr = some x) : x ∈ i.addresses := by
  cases i with
  | sti | cpy | stx | xor => cases h; simp [Instr.addresses]
  | _ => cases h

/-- Memory after an instruction differs at the stored address at most. -/
theorem get_memoryAfter (m : Memory) {i : Instr} {x : Nat} (h : i.storeAddr ≠ some x) :
    (memoryAfter m i).get x = m.get x := by
  rw [memoryAfter]
  cases hst : i.storeAddr with
  | none => rfl
  | some a => exact (Memory.get_set ..).trans (if_neg fun hx : x = a => h (hx ▸ hst))

theorem wf_memoryAfter {m : Memory} {i : Instr} (hm : m.wf = true) (h : ∀ x ∈ i.addresses, x < 1024) :
    (memoryAfter m i).wf = true := by
  rw [memoryAfter]
  cases hst : i.storeAddr with
  | none => exact hm
  | some a => exact Memory.wf_set _ hm (h a (storeAddr_mem_addresses hst))

/-- An instruction of an image that completes formed only legal addresses, and its next state is the one `exec_cases` lists. -/
theorem exec_eq_next {i : Instr} {s t : State} (hi : i.inImage = true) (h : exec i s = .next t) :
    (∀ x ∈ i.addresses, x < 1024) ∧ t = { s with memory := memoryAfter s.memory i, k := s.k + 1 } := by
  obtain ⟨hadr, e⟩ | ⟨-, e⟩ := exec_cases i s hi
  · rw [e] at h; cases h; exact ⟨hadr, rfl⟩
  · rw [e] at h; cases h

/-- An instruction of an image that faults formed an illegal address. -/
theorem exec_eq_fault {i : Instr} {s : State} {f : Fault} (hi : i.inImage = true) (h : exec i s = .fault f) :
    (∃ x ∈ i.addresses, 1024 ≤ x) ∧ f = .memoryFault s.k := by
  obtain ⟨-, e⟩ | ⟨hadr, e⟩ := exec_cases i s hi
  · rw [e] at h; cases h
  · rw [e] at h; cases h; exact ⟨hadr, rfl⟩

theorem exec_ne_refused_of_inImage {i : Instr} (hi : i.inImage = true) (s : State) (r : Refusal) :
    exec i s ≠ .refused r := by
  obtain ⟨-, e⟩ | ⟨-, e⟩ := exec_cases i s hi <;> rw [e] <;> exact nofun

theorem exec_ne_refused (i : Instr) (s : State) (r : Refusal) : exec i s ≠ .refused r := by
  cases i with
  | enc a b c d => rw [exec_enc]; exact nofun
  | dec seq => obtain ⟨-, e⟩ | ⟨-, e⟩ := exec_dec_cases seq s <;> rw [e] <;> exact nofun
  | _ => exact exec_ne_refused_of_inImage rfl s r

/-- Settles O19: the addresses of STX are D and the sum B + C of natural numbers, and the stored value is the old cell D. -/
theorem stxStoresAtTheExactSum : Obligations.StxStoresAtTheExactSum := by
  refine ⟨fun r h => decode_of_lowNibble h (by decide), fun b c d s => ⟨fun hd hbc => ?_, ?_⟩⟩
  · exact exec_of_storeAddr (i := .stx b c d) rfl rfl (by simpa [Instr.addresses, sourceD, destIndexed] using ⟨hd, hbc⟩)
  · rintro (hd | hbc)
    · exact exec_of_outOfBounds (x := sourceD d) (by simp [Instr.addresses]) hd
    · exact exec_of_outOfBounds (x := destIndexed b c) (by simp [Instr.addresses]) hbc

/-- Settles O22: an address out of range faults whichever it is, and without one the instruction completes. -/
theorem outOfRangeAddressFaults : Obligations.OutOfRangeAddressFaults :=
  fun _ _ hi => ⟨fun ⟨_, hx, hge⟩ => exec_of_outOfBounds hx hge, fun h => ⟨_, exec_of_inBounds hi h, rfl⟩⟩

/-- Settles O23: the next state differs in Memory and k, and Memory at the stored address only. -/
theorem instructionFrame : Obligations.InstructionFrame := by
  intro i s t hi h
  obtain ⟨-, rfl⟩ := exec_eq_next hi h
  exact ⟨rfl, fun _ hx => get_memoryAfter s.memory hx⟩

/-- Settles O24: whether an instruction completes depends on its addresses, and what it stores on Memory, never on k. -/
theorem noInstructionReadsTheIndex : Obligations.NoInstructionReadsTheIndex := by
  intro i s t j hi h
  obtain ⟨hadr, rfl⟩ := exec_eq_next hi h
  exact exec_of_inBounds hi hadr

end Sys2Proof.Machine

/-! PROOFS. Cutting an image into chunks (42_image_framing.md R82, R83): chunk `k` by its bytes, and the chunks of concatenated records. -/

namespace Sys2Proof.Machine

/-! ## One chunk -/

/-- Chunk `k` is the record whose bytes stand at byte offset `11 * k`. -/
theorem chunkAt_eq_some_iff {image : List Byte} {k : Nat} {r : Record} :
    chunkAt image k = some r ↔ k < image.length / 11 ∧ (image.drop (11 * k)).take 11 = recBytes r := by
  by_cases hk : k < image.length / 11
  · rw [chunkAt_lt hk, Option.some.injEq]
    refine ⟨fun h => ⟨hk, ?_⟩, fun ⟨_, h⟩ => ?_⟩
    · rw [← h, recBytes_recOfBytes (chunk_length hk)]
    · rw [h, recOfBytes_recBytes]
  · rw [chunkAt_ge (by omega)]
    exact iff_of_false nofun fun h => hk h.1

theorem exists_chunkAt {image : List Byte} {k : Nat} (h : k < image.length / 11) : ∃ r, chunkAt image k = some r :=
  ⟨_, chunkAt_lt h⟩

theorem getElem?_of_chunkAt {image : List Byte} {k i : Nat} {r : Record} (h : chunkAt image k = some r) (hi : i < 11) :
    image[11 * k + i]? = some (recByte r i) := by
  obtain ⟨-, hbytes⟩ := chunkAt_eq_some_iff.1 h
  rw [← recBytes_getElem? r hi, ← hbytes, List.getElem?_take_of_lt hi, List.getElem?_drop]

/-- A tail too short for a record makes no new chunk and changes none. -/
theorem chunkAt_append_tail {image tail : List Byte} (k : Nat) (himage : image.length % 11 = 0) (htail : tail.length < 11) :
    chunkAt (image ++ tail) k = chunkAt image k := by
  have hcount : (image ++ tail).length / 11 = image.length / 11 := by rw [List.length_append]; omega
  by_cases hk : k < image.length / 11
  · obtain ⟨r, hr⟩ := exists_chunkAt hk
    obtain ⟨-, hbytes⟩ := chunkAt_eq_some_iff.1 hr
    rw [hr, chunkAt_eq_some_iff, List.drop_append_of_le_length (by omega),
      List.take_append_of_le_length (by rw [List.length_drop]; omega)]
    exact ⟨hcount ▸ hk, hbytes⟩
  · rw [chunkAt_ge (by omega), chunkAt_ge (by omega)]

/-- A record placed at byte offset `11 * k` is chunk `k`. -/
theorem chunkAt_placeBytes (image : List Byte) (k : Nat) (r : Record) :
    chunkAt (placeBytes image (11 * k) (recBytes r)) k = some r := by
  have hfront : (image.take (11 * k) ++ List.replicate (11 * k - image.length) 0).length = 11 * k := by
    rw [List.length_append, List.length_take, List.length_replicate]; omega
  rw [chunkAt_eq_some_iff, placeBytes, List.append_assoc]
  refine ⟨?_, ?_⟩
  · rw [List.length_append, hfront, List.length_append, recBytes_length]; omega
  · rw [List.drop_left' hfront, List.take_left' (recBytes_length r)]

/-! ## All chunks -/

theorem chunksFrom_length (image : List Byte) (k n : Nat) : (chunksFrom image k n).length = n := by
  induction n generalizing k with
  | zero => rfl
  | succ n ih => rw [chunksFrom, List.length_cons, ih]

theorem chunks_length (image : List Byte) : (chunks image).length = image.length / 11 := chunksFrom_length ..

theorem chunksFrom_succ {image : List Byte} {k : Nat} {r : Record} (n : Nat) (h : chunkAt image k = some r) :
    chunksFrom image k (n + 1) = r :: chunksFrom image (k + 1) n := by
  obtain ⟨-, hbytes⟩ := chunkAt_eq_some_iff.1 h
  rw [chunksFrom, hbytes, recOfBytes_recBytes]

/-- A record in front moves every chunk back by one place. -/
theorem chunksFrom_recBytes_append (r : Record) (image : List Byte) (k n : Nat) :
    chunksFrom (recBytes r ++ image) (k + 1) n = chunksFrom image k n := by
  induction n generalizing k with
  | zero => rfl
  | succ n ih =>
    have hdrop : (recBytes r ++ image).drop (11 * (k + 1)) = image.drop (11 * k) := by
      rw [show 11 * (k + 1) = (recBytes r).length + 11 * k by rw [recBytes_length]; omega, List.drop_length_add_append]
    rw [chunksFrom, chunksFrom, ih, hdrop]

theorem chunks_recBytes_append (r : Record) (image : List Byte) : chunks (recBytes r ++ image) = r :: chunks image := by
  have hcount : chunkCount (recBytes r ++ image) = chunkCount image + 1 := by
    show (recBytes r ++ image).length / 11 = image.length / 11 + 1
    rw [List.length_append, recBytes_length]; omega
  have hfirst : chunkAt (recBytes r ++ image) 0 = some r := by
    rw [chunkAt_eq_some_iff, List.length_append, recBytes_length]
    exact ⟨by omega, List.take_left' (recBytes_length r)⟩
  rw [chunks, hcount, chunksFrom_succ _ hfirst, chunksFrom_recBytes_append, chunks]

theorem chunks_flatMap_recBytes (rs : List Record) {tail : List Byte} (h : tail.length < 11) :
    chunks (rs.flatMap recBytes ++ tail) = rs := by
  induction rs with
  | nil => rw [List.flatMap_nil, List.nil_append, chunks, chunkCount, Nat.div_eq_of_lt h, chunksFrom]
  | cons r rs ih => rw [List.flatMap_cons, List.append_assoc, chunks_recBytes_append, ih]

theorem length_flatMap_recBytes (rs : List Record) : (rs.flatMap recBytes).length = 11 * rs.length := by
  induction rs with
  | nil => rfl
  | cons r rs ih => rw [List.flatMap_cons, List.length_append, recBytes_length, ih, List.length_cons]; omega

/-- Every image is records and a tail too short for one. -/
theorem exists_records_of_image (image : List Byte) :
    ∃ (rs : List Record) (tail : List Byte), image = rs.flatMap recBytes ++ tail ∧ tail.length < 11 := by
  induction hn : image.length / 11 generalizing image with
  | zero => exact ⟨[], image, rfl, by omega⟩
  | succ n ih =>
    have hfirst : (image.take 11).length = 11 := by rw [List.length_take]; omega
    obtain ⟨rs, tail, hrest, htail⟩ := ih (image.drop 11) (by rw [List.length_drop]; omega)
    refine ⟨recOfBytes (image.take 11) :: rs, tail, ?_, htail⟩
    rw [List.flatMap_cons, recBytes_recOfBytes hfirst, List.append_assoc, ← hrest, List.take_append_drop]

/-- Settles O39: a record in front is one more chunk, and every image is records with a short tail. -/
theorem cuttingAnImageGivesItsRecords : Obligations.CuttingAnImageGivesItsRecords := by
  refine ⟨fun rs tail => chunks_flatMap_recBytes rs, fun image => ?_⟩
  obtain ⟨rs, tail, rfl, htail⟩ := exists_records_of_image image
  have hlen : 11 * ((rs.flatMap recBytes ++ tail).length / 11) = (rs.flatMap recBytes).length := by
    rw [List.length_append, length_flatMap_recBytes]; omega
  simp only [pack_DEC]
  rw [chunks_flatMap_recBytes rs htail, hlen, List.take_left]

end Sys2Proof.Machine

/-! PROOFS. One step of the machine: what each operation's step does (43_uvm_opcodes.md R90, R104; 60_exceptions.md R110 to R119), and the
invariant it keeps. -/

namespace Sys2Proof.Machine

theorem State.activity_cases (s : State) :
    s.activity = .idle ∨ s.activity = .assembling ∨ s.activity = .interpreting := by
  cases s.activity <;> simp

/-! ## A step of a run -/

theorem stepRun_of_chunkAt {s : State} {r : Record} (h : chunkAt s.image s.k = some r) : stepRun s = exec (decode r) s := by
  simp only [stepRun, h]

theorem stepRun_of_chunkAt_none {s : State} (h : chunkAt s.image s.k = none) : stepRun s = finishRun s := by
  simp only [stepRun, h]

/-- Behind the last chunk nothing is executed: a step that completes leaves k and Memory. -/
theorem stepRun_behind_last {s t : State} (hk : s.image.length / 11 ≤ s.k) (h : stepRun s = .next t) :
    t.activity = .idle ∧ t.k = s.k ∧ t.memory = s.memory := by
  obtain ⟨hlt, -⟩ | ⟨-, -, e⟩ | ⟨-, -, e⟩ := stepRun_cases s
  · omega
  · rw [e] at h; cases h; exact ⟨rfl, rfl, rfl⟩
  · rw [e] at h; cases h

/-- Settles O25: the chunk is read off the image by its bytes, and its instruction moves k on by one. -/
theorem stepRunsTheDecodedChunk : Obligations.StepRunsTheDecodedChunk := by
  intro s hact
  rw [step_interpreting hact]
  refine ⟨fun hk => ?_, fun hk t h => stepRun_behind_last hk h⟩
  obtain ⟨r, hr⟩ := exists_chunkAt hk
  rw [stepRun_of_chunkAt hr]
  refine ⟨r, fun i hi => getElem?_of_chunkAt hr hi, rfl, fun t h => ?_⟩
  obtain ⟨-, rfl⟩ := exec_eq_next (decode_inImage r) h
  exact ⟨hact, rfl⟩

/-- Settles O26: the loaded record is chunk k of the new image, and its A is the low nibble of its value. -/
theorem loadedWordRunsNext : Obligations.LoadedWordRunsNext := by
  intro s nbits w h
  refine ⟨decode (tableRecord nbits w), decodeTableWord_eq h w, ?_, ?_⟩
  · rw [decode, fields_select, Option.map_some, DEC_a_toNat, tableRecord_toNat h]
    rfl
  · exact (step_interpreting rfl).trans (stepRun_of_chunkAt (chunkAt_placeBytes s.image s.k _))

/-- Settles O28: without a chunk the step is the report of the range, or its refusal. -/
theorem runEndsWithTheReport : Obligations.RunEndsWithTheReport := by
  intro s hact hk
  rw [step_interpreting hact]
  obtain ⟨hlt, -⟩ | ⟨-, hrange, e⟩ | ⟨-, hrange, e⟩ := stepRun_cases s
  · omega
  · refine ⟨fun _ => ⟨_, e, ?_, fun i hi => ?_⟩, fun hbad => absurd hrange hbad⟩
    · rw [reportPairs_length]; omega
    · rw [reportPairs_length] at hi
      rw [reportPairs_getElem? _ _ _ _ _ hi, Nat.zero_add]
  · exact ⟨fun hlegal => absurd hlegal hrange, fun _ => e⟩

/-! ## An idle step -/

theorem step_of_request {s : State} {r : Request} {rs : List Request} (hact : s.activity = .idle)
    (hr : s.requests = r :: rs) : step s = startRequest r { s with requests := rs } := by
  rw [step_idle hact]
  simp only [stepIdle, hr]

/-- Settles O30: `startRun` sets Memory to the empty list, in which every cell reads 0. -/
theorem everyRunStartsFresh : Obligations.EveryRunStartsFresh :=
  fun _ _ _ _ _ hact hr => ⟨[], step_of_request hact hr, rfl, Memory.get_nil⟩

/-- Settles O31: `startAssembly` sets every field of the assembly. -/
theorem everyAssemblyStartsFresh : Obligations.EveryAssemblyStartsFresh :=
  fun _ _ _ hact hr => step_of_request hact hr

/-- Settles O32: the start of a codec call is the call. -/
theorem idleStepServesTheOldestCall : Obligations.IdleStepServesTheOldestCall := by
  refine fun s hact => ⟨fun _ _ _ _ _ hr => step_of_request hact hr, fun _ _ hr => step_of_request hact hr, fun hr => ?_⟩
  rw [step_idle hact]
  simp only [stepIdle, hr]

/-! ## Fields a running operation does not look at -/

/-- An outcome with its next state changed by `g`, a fault or a refusal as it is. -/
def onNext (g : State → State) : Host.Outcome State Fault Refusal → Host.Outcome State Fault Refusal
  | .next t => .next (g t)
  | .fault f => .fault f
  | .refused r => .refused r

@[simp] theorem onNext_next (g : State → State) (t : State) : onNext g (.next t) = .next (g t) := rfl

@[simp] theorem onNext_fault (g : State → State) (f : Fault) : onNext g (.fault f) = .fault f := rfl

/-- A change of the state that the instructions of a run and the report neither see nor undo. -/
structure UnseenByRun (g : State → State) : Prop where
  memory : ∀ s, (g s).memory = s.memory
  k : ∀ s, (g s).k = s.k
  rangeStart : ∀ s, (g s).rangeStart = s.rangeStart
  rangeEnd : ∀ s, (g s).rangeEnd = s.rangeEnd
  store : ∀ s m k, { g s with memory := m, k := k } = g { s with memory := m, k := k }
  finish : ∀ s o, (g s).finish o = g (s.finish o)

theorem unseenByRun_requests (q : List Request) : UnseenByRun fun t => { t with requests := q } := by
  constructor <;> intros <;> rfl

theorem unseenByRun_image (image : List Byte) : UnseenByRun fun t => { t with image := image } := by
  constructor <;> intros <;> rfl

theorem UnseenByRun.exec_eq {g : State → State} (hg : UnseenByRun g) {i : Instr} (hi : i.inImage = true) (s : State) :
    exec i (g s) = onNext g (exec i s) := by
  obtain ⟨hadr, e⟩ | ⟨⟨x, hx, hge⟩, e⟩ := exec_cases i s hi <;> rw [e]
  · rw [exec_of_inBounds hi hadr, hg.store, hg.memory, hg.k, onNext_next]
  · rw [exec_of_outOfBounds hx hge, hg.k, onNext_fault]

theorem UnseenByRun.finishRun_eq {g : State → State} (hg : UnseenByRun g) (s : State) :
    finishRun (g s) = onNext g (finishRun s) := by
  rw [finishRun, finishRun, hg.memory, hg.rangeStart, hg.rangeEnd]
  cases reportSlice s.memory s.rangeStart s.rangeEnd with
  | ok pairs => exact congrArg _ (hg.finish s _)
  | error f => rfl

theorem stepRun_withRequests (s : State) (q : List Request) :
    stepRun { s with requests := q } = onNext (fun t => { t with requests := q }) (stepRun s) := by
  simp only [stepRun]
  cases chunkAt s.image s.k with
  | some r => exact (unseenByRun_requests q).exec_eq (decode_inImage r) s
  | none => exact (unseenByRun_requests q).finishRun_eq s

theorem stepAssembly_withRequests (s : State) (q : List Request) :
    stepAssembly { s with requests := q } = onNext (fun t => { t with requests := q }) (stepAssembly s) := by
  cases hl : s.lines with
  | nil => simp only [stepAssembly, hl, State.finish, onNext_next]
  | cons l ls =>
    obtain ⟨-, e⟩ | ⟨-, p, -, e⟩ | ⟨-, -, e⟩ := assembleLine_cases s.lineNo l <;> simp only [stepAssembly, hl, e] <;> rfl

theorem step_withRequests {s : State} (q : List Request) (h : s.activity ≠ .idle) :
    step { s with requests := q } = onNext (fun t => { t with requests := q }) (step s) := by
  obtain hact | hact | hact := s.activity_cases
  · exact absurd hact h
  · rw [step_assembling hact, ← stepAssembly_withRequests]
    exact step_assembling hact
  · rw [step_interpreting hact, ← stepRun_withRequests]
    exact step_interpreting hact

/-- Settles O33: the step commutes with replacing the requests; replacing them by themselves shows that the step leaves them. -/
theorem hostCannotTouchARunningOperation : Obligations.HostCannotTouchARunningOperation := by
  refine fun s q hact => ⟨fun t h => ⟨?_, ?_⟩, fun f h => ?_⟩
  · have hself : step s = onNext (fun t => { t with requests := s.requests }) (step s) := step_withRequests s.requests hact
    rw [h, onNext_next, Host.Outcome.next.injEq] at hself
    rw [hself]
  · rw [step_withRequests q hact, h, onNext_next]
  · rw [step_withRequests q hact, h, onNext_fault]

theorem step_withTail {s : State} {tail : List Byte} (hact : s.activity = .interpreting)
    (himage : s.image.length % 11 = 0) (htail : tail.length < 11) :
    step { s with image := s.image ++ tail } =
      onNext (fun t => { t with image := s.image ++ tail }) (step s) := by
  rw [step_interpreting hact, step_interpreting (s := { s with image := s.image ++ tail }) hact]
  simp only [stepRun, chunkAt_append_tail s.k himage htail]
  cases chunkAt s.image s.k with
  | some r => exact (unseenByRun_image _).exec_eq (decode_inImage r) s
  | none => exact (unseenByRun_image _).finishRun_eq s

/-- Settles O27: the tail changes no chunk, and no instruction and no report looks at the image. -/
theorem trailingBytesAreIgnored : Obligations.TrailingBytesAreIgnored := by
  intro s tail hact himage htail
  refine ⟨fun t h => ?_, fun f h => ?_, fun hk t h => ?_⟩
  · rw [step_withTail hact himage htail, h, onNext_next]
  · rw [step_withTail hact himage htail, h, onNext_fault]
  · have hbehind : (s.image ++ tail).length / 11 ≤ s.k := by rw [List.length_append]; omega
    rw [step_interpreting (s := { s with image := s.image ++ tail }) hact] at h
    exact stepRun_behind_last (s := { s with image := s.image ++ tail }) hbehind h

/-! ## Faults, refusals and results -/

theorem stepIdle_fault {s : State} {f : Fault} (h : stepIdle s = .fault f) :
    ∃ seq rest, s.requests = .decode seq :: rest ∧ seq.length ≠ 11 ∧ f = .formatError seq.length := by
  obtain ⟨-, e⟩ | ⟨r, rs, hr, ⟨_, _, _, _, -, e⟩ | ⟨_, -, -, e⟩ | ⟨seq, rfl, hlen, e⟩ | ⟨_, -, e⟩ | ⟨_, _, _, -, e⟩⟩ :=
    stepIdle_cases s <;> rw [e] at h <;> cases h
  exact ⟨seq, rs, hr, hlen, rfl⟩

theorem stepAssembly_fault {s : State} {f : Fault} (h : stepAssembly s = .fault f) :
    ∃ l ls, s.lines = l :: ls ∧ isBlank l = false ∧ parseLine l = none ∧ f = .parseError s.lineNo := by
  obtain ⟨-, e⟩ | ⟨l, ls, hl, ⟨-, e⟩ | ⟨-, _, -, e⟩ | ⟨hb, hp, e⟩⟩ := stepAssembly_cases s <;> rw [e] at h <;> cases h
  exact ⟨l, ls, hl, hb, hp, rfl⟩

theorem stepRun_fault {s : State} {f : Fault} (h : stepRun s = .fault f) :
    (f = .memoryFault s.k ∧ s.k < s.image.length / 11 ∧
      ∃ r, chunkAt s.image s.k = some r ∧ ∃ x ∈ (decode r).addresses, 1024 ≤ x) ∨
    (f = .rangeError ∧ s.image.length / 11 ≤ s.k ∧
      ¬ (0 ≤ s.rangeStart ∧ s.rangeStart ≤ s.rangeEnd ∧ s.rangeEnd ≤ 1024)) := by
  obtain ⟨hk, e⟩ | ⟨-, -, e⟩ | ⟨hk, hrange, e⟩ := stepRun_cases s <;> rw [e] at h
  · obtain ⟨hadr, rfl⟩ := exec_eq_fault (decode_inImage _) h
    exact .inl ⟨rfl, hk, _, chunkAt_lt hk, hadr⟩
  · cases h
  · cases h; exact .inr ⟨rfl, hk, hrange⟩

/-- Settles O34: an idle step, a step of an assembly and a step of a run fault in the ways listed for each, and no two of them
share an error. -/
theorem eachErrorHasItsOneCause : Obligations.EachErrorHasItsOneCause := by
  intro s f h
  obtain hact | hact | hact := s.activity_cases
  · rw [step_idle hact] at h
    obtain ⟨seq, rest, hr, hlen, rfl⟩ := stepIdle_fault h
    exact ⟨hact, hlen, seq, rest, hr, rfl⟩
  · rw [step_assembling hact] at h
    obtain ⟨l, ls, hl, hb, hp, rfl⟩ := stepAssembly_fault h
    exact ⟨hact, rfl, l, ls, hl, hb, hp⟩
  · rw [step_interpreting hact] at h
    obtain ⟨rfl, hk, hadr⟩ | ⟨rfl, hk, hrange⟩ := stepRun_fault h
    · exact ⟨hact, rfl, hk, hadr⟩
    · exact ⟨hact, hk, hrange⟩

theorem step_ne_refused (s : State) (r : Refusal) : step s ≠ .refused r := by
  obtain hact | hact | hact := s.activity_cases
  · rw [step_idle hact]
    obtain ⟨-, e⟩ | ⟨_, _, -, ⟨_, _, _, _, -, e⟩ | ⟨_, -, -, e⟩ | ⟨_, -, -, e⟩ | ⟨_, -, e⟩ | ⟨_, _, _, -, e⟩⟩ :=
      stepIdle_cases s <;> rw [e] <;> exact nofun
  · rw [step_assembling hact]
    obtain ⟨-, e⟩ | ⟨_, _, -, ⟨-, e⟩ | ⟨-, _, -, e⟩ | ⟨-, -, e⟩⟩ := stepAssembly_cases s <;> rw [e] <;> exact nofun
  · rw [step_interpreting hact]
    obtain ⟨-, e⟩ | ⟨-, -, e⟩ | ⟨-, -, e⟩ := stepRun_cases s <;> rw [e]
    · exact exec_ne_refused _ s r
    · exact nofun
    · exact nofun

/-- Settles O35: every listed outcome of an instruction and of a step is a next state or a fault. -/
theorem nothingIsRefused : Obligations.NothingIsRefused := ⟨exec_ne_refused, step_ne_refused⟩

/-- Settles O36: a codec call, the end of an assembly and the report each add one result, and nothing else adds any. -/
theorem resultsAreOnlyAdded : Obligations.ResultsAreOnlyAdded := by
  intro s t h
  obtain hact | hact | hact := s.activity_cases
  · rw [step_idle hact] at h
    obtain ⟨-, e⟩ | ⟨_, _, -, ⟨_, _, _, _, -, e⟩ | ⟨_, -, -, e⟩ | ⟨_, -, -, e⟩ | ⟨_, -, e⟩ | ⟨_, _, _, -, e⟩⟩ :=
      stepIdle_cases s <;> rw [e] at h <;> cases h
    · exact .inl rfl
    · exact .inr ⟨_, rfl⟩
    · exact .inr ⟨_, rfl⟩
    · exact .inl rfl
    · exact .inl rfl
  · rw [step_assembling hact] at h
    obtain ⟨-, e⟩ | ⟨_, _, -, ⟨-, e⟩ | ⟨-, _, -, e⟩ | ⟨-, -, e⟩⟩ := stepAssembly_cases s <;> rw [e] at h <;> cases h
    · exact .inr ⟨_, rfl⟩
    · exact .inl rfl
    · exact .inl rfl
  · rw [step_interpreting hact] at h
    obtain ⟨-, e⟩ | ⟨-, -, e⟩ | ⟨-, -, e⟩ := stepRun_cases s <;> rw [e] at h
    · obtain ⟨-, rfl⟩ := exec_eq_next (decode_inImage _) h
      exact .inl rfl
    · cases h; exact .inr ⟨_, rfl⟩
    · cases h

/-! ## The invariant -/

theorem inv_reset : Inv State.reset where
  memory_wf := reset_memory_wf
  index_le := Nat.zero_le _
  image_of_trace := rfl
  trace_encodes := fun _ he => absurd he List.not_mem_nil
  line_pos := le_rfl

/-- Settles O50: every field the statement names is the empty list, 0 or line 1. -/
theorem resetIsClean : Obligations.ResetIsClean := ⟨Memory.get_nil, rfl, rfl, rfl, inv_reset⟩

theorem stepIdle_keeps_inv {s t : State} (hinv : Inv s) (h : stepIdle s = .next t) : Inv t := by
  obtain ⟨hmem, hidx, himage, htrace, hline⟩ := hinv
  obtain ⟨-, e⟩ | ⟨_, _, -, ⟨_, _, _, _, -, e⟩ | ⟨_, -, -, e⟩ | ⟨_, -, -, e⟩ | ⟨_, -, e⟩ | ⟨_, _, _, -, e⟩⟩ :=
    stepIdle_cases s <;> rw [e] at h <;> cases h
  · exact ⟨hmem, hidx, himage, htrace, hline⟩
  · exact ⟨hmem, hidx, himage, htrace, hline⟩
  · exact ⟨hmem, hidx, himage, htrace, hline⟩
  · exact ⟨hmem, hidx, rfl, fun _ he => absurd he List.not_mem_nil, le_rfl⟩
  · exact ⟨rfl, Nat.zero_le _, himage, htrace, hline⟩

theorem stepAssembly_keeps_inv {s t : State} (hinv : Inv s) (h : stepAssembly s = .next t) : Inv t := by
  obtain ⟨hmem, hidx, himage, htrace, hline⟩ := hinv
  obtain ⟨-, e⟩ | ⟨_, _, -, ⟨-, e⟩ | ⟨-, p, -, e⟩ | ⟨-, -, e⟩⟩ := stepAssembly_cases s <;> rw [e] at h <;> cases h
  · exact ⟨hmem, hidx, himage, htrace, hline⟩
  · exact ⟨hmem, hidx, himage, htrace, Nat.le_succ_of_le hline⟩
  · refine ⟨hmem, hidx, ?_, fun e he => ?_, Nat.le_succ_of_le hline⟩
    · simp only [himage, List.flatMap_append, List.flatMap_singleton]
    · obtain he | he := List.mem_append.1 he
      · exact htrace e he
      · rw [List.mem_singleton.1 he]; rfl

theorem stepRun_keeps_inv {s t : State} (hinv : Inv s) (h : stepRun s = .next t) : Inv t := by
  obtain ⟨hmem, hidx, himage, htrace, hline⟩ := hinv
  obtain ⟨hk, e⟩ | ⟨-, -, e⟩ | ⟨-, -, e⟩ := stepRun_cases s <;> rw [e] at h
  · obtain ⟨hadr, rfl⟩ := exec_eq_next (decode_inImage _) h
    exact ⟨wf_memoryAfter hmem hadr, hk, himage, htrace, hline⟩
  · cases h; exact ⟨hmem, hidx, himage, htrace, hline⟩
  · cases h

/-- Settles O51: a step of a run keeps Memory canonical and k within the image, a step of an assembly the image with its trace,
and an idle step starts either from its reset values. -/
theorem everyStepKeepsTheInvariant : Obligations.EveryStepKeepsTheInvariant := by
  intro s t hinv h
  obtain hact | hact | hact := s.activity_cases
  · exact stepIdle_keeps_inv hinv (step_idle hact ▸ h)
  · exact stepAssembly_keeps_inv hinv (step_assembling hact ▸ h)
  · exact stepRun_keeps_inv hinv (step_interpreting hact ▸ h)

end Sys2Proof.Machine

/-! PROOFS. Runs of several steps (43_uvm_opcodes.md R90): the steps of a run are the loop of `execute`, every run ends, and a safe image
runs to its report. -/

namespace Sys2Proof.Machine

/-! ## Composing runs -/

theorem run_add {n : Nat} {s t : State} (m : Nat) (h : core.run n s = .next t) : core.run (n + m) s = core.run m t := by
  induction n generalizing s with
  | zero =>
    cases h
    rw [Nat.zero_add]
  | succ n ih =>
    rw [Nat.add_right_comm]
    cases hstep : step s with
    | next u =>
      rw [run_next n hstep] at h
      rw [run_next (n + m) hstep, ih h]
    | fault f => rw [run_fault n hstep] at h; cases h
    | refused r => exact absurd hstep (step_ne_refused s r)

theorem run_one {s t : State} (h : step s = .next t) : core.run 1 s = .next t := run_next 0 h

/-! ## The loop of `execute` -/

/-- A step at a chunk that exists is the effect of its instruction: one of the two outcomes `exec_cases` lists. -/
theorem step_of_chunkAt {s : State} {r : Record} (hact : s.activity = .interpreting) (h : chunkAt s.image s.k = some r) :
    step s = exec (decode r) s :=
  (step_interpreting hact).trans (stepRun_of_chunkAt h)

theorem run_eq_executeRecords (n : Nat) {s : State} (hact : s.activity = .interpreting)
    (hn : s.k + n = s.image.length / 11) : core.run n s = executeRecords (chunksFrom s.image s.k n) s := by
  induction n generalizing s with
  | zero => rfl
  | succ n ih =>
    obtain ⟨r, hr⟩ := exists_chunkAt (image := s.image) (k := s.k) (by omega)
    rw [chunksFrom_succ n hr]
    have hstep := step_of_chunkAt hact hr
    obtain ⟨-, e⟩ | ⟨-, e⟩ := exec_cases (decode r) s (decode_inImage r)
    · rw [run_next n (hstep.trans e), executeRecords_next _ e]
      exact ih hact ((Nat.add_right_comm s.k 1 n).trans hn)
    · rw [run_fault n (hstep.trans e), executeRecords_fault _ e]
      rfl

/-- Settles O38: chunk by chunk, the step and one turn of the loop have the same outcome. -/
theorem stepsOfARunAreTheExecuteLoop : Obligations.StepsOfARunAreTheExecuteLoop := by
  intro s hact hk
  rw [run_eq_executeRecords _ hact (by rw [hk, Nat.zero_add]), hk]
  rfl

/-! ## Termination -/

/-- Settles O37: each step of a run ends it or leaves one chunk less. -/
theorem everyRunTerminates : Obligations.EveryRunTerminates := by
  intro s hact
  induction hleft : s.image.length / 11 - s.k generalizing s with
  | zero =>
    obtain ⟨hk, -⟩ | ⟨-, -, e⟩ | ⟨-, -, e⟩ := stepRun_cases s
    · omega
    · exact ⟨1, by omega, .inl ⟨_, run_one ((step_interpreting hact).trans e), rfl, rfl⟩⟩
    · exact ⟨1, by omega, .inr (.inr (run_fault 0 ((step_interpreting hact).trans e)))⟩
  | succ left ih =>
    obtain ⟨r, hr⟩ := exists_chunkAt (image := s.image) (k := s.k) (by omega)
    have hstep := step_of_chunkAt hact hr
    obtain ⟨-, e⟩ | ⟨-, e⟩ := exec_cases (decode r) s (decode_inImage r)
    · obtain ⟨n, hn, hend⟩ := ih { s with memory := memoryAfter s.memory (decode r), k := s.k + 1 } hact (by
        show s.image.length / 11 - (s.k + 1) = left
        omega)
      refine ⟨n + 1, by omega, ?_⟩
      rw [run_next n (hstep.trans e)]
      obtain hidle | ⟨j, hfault, hj, hlt⟩ | hrange := hend
      · exact .inl hidle
      · exact .inr (.inl ⟨j, hfault, Nat.le_of_succ_le hj, hlt⟩)
      · exact .inr (.inr hrange)
    · exact ⟨1, by omega, .inr (.inl ⟨s.k, run_fault 0 (hstep.trans e), le_rfl, by omega⟩)⟩

/-! ## Safe images -/

/-- Records that form only legal addresses are all executed. -/
theorem executeRecords_of_inBounds {rs : List Record} (h : ∀ r ∈ rs, ∀ x ∈ (decode r).addresses, x < 1024) (s : State) :
    ∃ m : Memory, executeRecords rs s = .next { s with memory := m, k := s.k + rs.length } := by
  induction rs generalizing s with
  | nil => exact ⟨s.memory, rfl⟩
  | cons r rs ih =>
    rw [List.forall_mem_cons] at h
    obtain ⟨hr, hrs⟩ := h
    obtain ⟨m, hm⟩ := ih hrs { s with memory := memoryAfter s.memory (decode r), k := s.k + 1 }
    refine ⟨m, ?_⟩
    rw [executeRecords_next rs (exec_of_inBounds (decode_inImage r) hr), hm, List.length_cons, Nat.add_assoc,
      Nat.add_comm 1]

/-- Settles O40: the loop of `execute` goes through all chunks, and the step behind them is the report. -/
theorem safeImageRunsToItsReport : Obligations.SafeImageRunsToItsReport := by
  intro s hact hk hsafe hlo hle hhi
  obtain ⟨m, hm⟩ := executeRecords_of_inBounds hsafe s
  rw [← stepsOfARunAreTheExecuteLoop s hact hk, chunks_length, hk, Nat.zero_add] at hm
  obtain ⟨hreport, -⟩ := runEndsWithTheReport { s with memory := m, k := s.image.length / 11 } hact le_rfl
  obtain ⟨pairs, hstep, hlen, hpairs⟩ := hreport ⟨hlo, hle, hhi⟩
  exact ⟨_, pairs, (run_add 1 hm).trans (run_one hstep), rfl, rfl, rfl, hlen, hpairs⟩

end Sys2Proof.Machine

/-! PROOFS. The assembler (42_image_framing.md R80; 30_encoding.md R51 to R56): one line at a time, whole programs, and the round trip
through the interpreter's chunks. -/

namespace Sys2Proof.Machine

/-! ## Blank lines -/

theorem isSpace_iff (ch : Char) : isSpace ch = true ↔ ch ∈ [' ', '\t', '\r', '\n', '\x0b', '\x0c'] := by
  have hcode : ∀ c : Char, ch = c ↔ ch.toNat = c.toNat := fun c => Char.toNat_inj.symm
  simp only [isSpace, Bool.or_eq_true, beq_iff_eq, List.mem_cons, List.not_mem_nil, or_false, hcode]
  simp only [show '\t'.toNat = 9 from rfl, show '\n'.toNat = 10 from rfl, show '\x0b'.toNat = 11 from rfl,
    show '\x0c'.toNat = 12 from rfl, show '\r'.toNat = 13 from rfl]
  tauto

theorem isBlank_iff (l : Line) : isBlank l = true ↔ ∀ ch ∈ l, ch ∈ [' ', '\t', '\r', '\n', '\x0b', '\x0c'] := by
  simp only [isBlank, List.all_eq_true, isSpace_iff]

/-! ## One line -/

section OneLine

variable {s : State} {l : Line} {ls : List Line}

theorem step_of_blank (hact : s.activity = .assembling) (hl : s.lines = l :: ls) (hb : isBlank l = true) :
    step s = .next { s with lines := ls, lineNo := s.lineNo + 1 } := by
  simp only [step_assembling hact, stepAssembly, hl, assembleLine, hb, if_true]

theorem step_of_parsed {p : ParsedLine} (hact : s.activity = .assembling) (hl : s.lines = l :: ls) (hb : isBlank l = false)
    (hp : parseLine l = some p) :
    step s = .next { s with lines := ls, lineNo := s.lineNo + 1,
                            asmImage := s.asmImage ++ recBytes (traceEntry p).encodedBytes,
                            asmTrace := s.asmTrace ++ [traceEntry p] } := by
  simp only [step_assembling hact, stepAssembly, hl, assembleLine, hb, hp, Bool.false_eq_true, if_false]

theorem step_of_malformed (hact : s.activity = .assembling) (hl : s.lines = l :: ls) (hb : isBlank l = false)
    (hp : parseLine l = none) : step s = .fault (.parseError s.lineNo) := by
  simp only [step_assembling hact, stepAssembly, hl, assembleLine, hb, hp, Bool.false_eq_true, if_false, raise]

theorem step_of_no_lines (hact : s.activity = .assembling) (hl : s.lines = []) :
    step s = .next (s.finish (.assembled s.asmImage s.asmTrace)) := by
  simp only [step_assembling hact, stepAssembly, hl]

variable (n : Nat) (image : List Byte) (trace : List TraceEntry)

theorem assembleFrom_of_blank (hb : isBlank l = true) :
    assembleFrom n image trace (l :: ls) = assembleFrom (n + 1) image trace ls := by
  simp only [assembleFrom, assembleLine, hb, if_true]

theorem assembleFrom_of_parsed {p : ParsedLine} (hb : isBlank l = false) (hp : parseLine l = some p) :
    assembleFrom n image trace (l :: ls) =
      assembleFrom (n + 1) (image ++ recBytes (traceEntry p).encodedBytes) (trace ++ [traceEntry p]) ls := by
  simp only [assembleFrom, assembleLine, hb, hp, Bool.false_eq_true, if_false]

theorem assembleFrom_of_malformed (hb : isBlank l = false) (hp : parseLine l = none) :
    assembleFrom n image trace (l :: ls) = .error (.parseError n) := by
  simp only [assembleFrom, assembleLine, hb, hp, Bool.false_eq_true, if_false]

end OneLine

/-- Settles O45: a line is blank exactly when it has no other character than the six. -/
theorem blankLinesAreSkipped : Obligations.BlankLinesAreSkipped := by
  refine fun s l ls hact hl => ⟨fun h => step_of_blank hact hl ((isBlank_iff l).2 h), fun ⟨ch, hmem, hch⟩ hp => ?_⟩
  have hb : isBlank l = false := Bool.eq_false_iff.2 fun h => hch ((isBlank_iff l).1 h ch hmem)
  exact step_of_malformed hact hl hb hp

/-- Settles O46: the added entry is `traceEntry` of the parsed line, in which an absent D is 0. -/
theorem parsedLineAddsItsRecord : Obligations.ParsedLineAddsItsRecord := by
  intro s l ls p hact hl hb hp
  refine ⟨p.d.getD 0, fun hd => ?_, fun v hd => ?_, step_of_parsed hact hl hb hp⟩
  · rw [hd, Option.getD_none]
  · rw [hd, Option.getD_some]

/-! ## Whole programs -/

theorem assembleFrom_first_malformed {before : List Line} {l : Line} (after : List Line) (n : Nat) (image : List Byte)
    (trace : List TraceEntry) (hgood : ∀ x ∈ before, isBlank x = true ∨ (parseLine x).isSome = true)
    (hb : isBlank l = false) (hp : parseLine l = none) :
    assembleFrom n image trace (before ++ l :: after) = .error (.parseError (before.length + n)) := by
  induction before generalizing n image trace with
  | nil => rw [List.nil_append, assembleFrom_of_malformed n image trace hb hp, List.length_nil, Nat.zero_add]
  | cons x before ih =>
    obtain ⟨hx, hgood⟩ := List.forall_mem_cons.1 hgood
    rw [List.cons_append, List.length_cons, Nat.add_right_comm, Nat.add_assoc]
    cases hxb : isBlank x with
    | true => rw [assembleFrom_of_blank n image trace hxb, ih _ _ _ hgood]
    | false =>
      obtain ⟨p, hxp⟩ := Option.isSome_iff_exists.1 (hx.resolve_left (by rw [hxb]; exact Bool.false_ne_true))
      rw [assembleFrom_of_parsed n image trace hxb hxp, ih _ _ _ hgood]

/-- Settles O47: the good lines before only count up the line number. -/
theorem firstBadLineEndsTheAssembly : Obligations.FirstBadLineEndsTheAssembly :=
  fun _ after _ hgood hb hp => assembleFrom_first_malformed after 1 [] [] hgood hb hp

/-- How an assembly at state `s` ends when `assembleFrom` gives the result: in its error, or idle with the result handed over. -/
def assemblyEnd (s : State) : Except Fault (List Byte × List TraceEntry) → Host.Outcome State Fault Refusal
  | .error f => .fault f
  | .ok (image, trace) =>
    .next { s with lines := [], lineNo := s.lineNo + s.lines.length, asmImage := image, asmTrace := trace, activity := .idle,
                   outputs := s.outputs ++ [.assembled image trace] }

/-- The end does not depend on how many of the lines are examined already, nor on what is under construction. -/
theorem assemblyEnd_of_line {s : State} {l : Line} {ls : List Line} (hl : s.lines = l :: ls) (image : List Byte)
    (trace : List TraceEntry) :
    assemblyEnd { s with lines := ls, lineNo := s.lineNo + 1, asmImage := image, asmTrace := trace } = assemblyEnd s := by
  funext result
  cases result with
  | error f => rfl
  | ok result => simp only [assemblyEnd, hl, List.length_cons, Nat.add_assoc, Nat.add_comm 1]

theorem run_assembly {s : State} (hact : s.activity = .assembling) :
    core.run (s.lines.length + 1) s = assemblyEnd s (assembleFrom s.lineNo s.asmImage s.asmTrace s.lines) := by
  induction hl : s.lines generalizing s with
  | nil =>
    rw [List.length_nil, run_one (step_of_no_lines hact hl)]
    simp only [assembleFrom, assemblyEnd, State.finish, hl, List.length_nil, Nat.add_zero]
    rfl
  | cons l ls ih =>
    rw [List.length_cons]
    cases hb : isBlank l with
    | true =>
      rw [run_next _ (step_of_blank hact hl hb), assembleFrom_of_blank _ _ _ hb, ← assemblyEnd_of_line hl]
      exact ih hact rfl
    | false =>
      cases hp : parseLine l with
      | none =>
        rw [run_fault _ (step_of_malformed hact hl hb hp), assembleFrom_of_malformed _ _ _ hb hp]
        rfl
      | some p =>
        rw [run_next _ (step_of_parsed hact hl hb hp), assembleFrom_of_parsed _ _ _ hb hp, ← assemblyEnd_of_line hl]
        exact ih hact rfl

/-- Settles O48: line by line, the step and `assembleFrom` add the same to image and trace. -/
theorem stepsOfAnAssemblyAreAssembleProgram : Obligations.StepsOfAnAssemblyAreAssembleProgram := by
  intro ls s
  have hrun : core.run (ls.length + 1) (startAssembly ls s) = assemblyEnd (startAssembly ls s) (assembleProgram ls) :=
    run_assembly (startAssembly_activity ls s)
  refine ⟨fun f h => ?_, fun image trace h => ?_⟩
  · rw [hrun, h]; rfl
  · rw [hrun, h]
    simp only [assemblyEnd, startAssembly, Nat.add_comm 1]
    rfl

/-! ## The round trip through the interpreter's chunks -/

/-- Settles O49: an assembled image is the concatenation of its lines' records, which cutting gives back, and law 2 decodes
each. -/
theorem assembledImageDecodesToItsLines : Obligations.AssembledImageDecodesToItsLines := by
  intro ls image trace h
  obtain ⟨ps, htrace, himage, hparse⟩ := assembleFrom_ok ls 1 [] [] image trace h
  have hrecords : image = (ps.map fun p => (traceEntry p).encodedBytes).flatMap recBytes := by
    rw [himage, List.nil_append, List.flatMap_map, List.flatMap_map]
  have hchunks : chunks image = ps.map fun p => (traceEntry p).encodedBytes := by
    rw [hrecords, ← List.append_nil (List.flatMap ..), chunks_flatMap_recBytes _ (by decide)]
  refine ⟨ps, hparse, ?_, ?_, ?_⟩
  · rw [htrace, List.nil_append, List.map_map]
    rfl
  · rw [hrecords, length_flatMap_recBytes, List.length_map]
  · rw [hchunks, List.map_map]
    refine List.map_congr_left fun p _ => ?_
    obtain ⟨ha, hb, hc, hd⟩ := decOfEncReducesEachOperand p.a p.b p.c (p.d.getD 0)
    simp only [Function.comp_apply, traceEntry, ha, hb, hc, hd]

end Sys2Proof.Machine

/-! PROOFS. The text line (30_encoding.md R46 to R50; D16, D17, D22). Adding a line's tokens succeeds when each has an entry under a key of
its own, and the map then holds exactly these entries; what a line parses to, when it fails, and that the order of its tokens does
not matter all follow from this. -/

namespace Sys2Proof.Machine

/-! ## The field map by keys -/

/-- The four keys (R49). -/
def fieldKeys : List (List Char) := [['A'], ['B'], ['C'], ['D']]

/-- The value of a key. -/
def FieldMap.get (m : FieldMap) (key : List Char) : Option Int :=
  if key = ['A'] then m.a else if key = ['B'] then m.b else if key = ['C'] then m.c else if key = ['D'] then m.d else none

/-- The map with a value for one more of the four keys. -/
def FieldMap.put (m : FieldMap) (key : List Char) (v : Int) : FieldMap where
  a := if key = ['A'] then some v else m.a
  b := if key = ['B'] then some v else m.b
  c := if key = ['C'] then some v else m.c
  d := if key = ['D'] then some v else m.d

theorem mem_fieldKeys {key : List Char} :
    key ∈ fieldKeys ↔ key = ['A'] ∨ key = ['B'] ∨ key = ['C'] ∨ key = ['D'] := by
  simp only [fieldKeys, List.mem_cons, List.not_mem_nil, or_false]

theorem FieldMap.get_of_notMem (m : FieldMap) {key : List Char} (h : key ∉ fieldKeys) : m.get key = none := by
  simp only [mem_fieldKeys, not_or] at h
  obtain ⟨hA, hB, hC, hD⟩ := h
  simp only [FieldMap.get, hA, hB, hC, hD, if_false]

theorem FieldMap.get_put (m : FieldMap) {key : List Char} (hkey : key ∈ fieldKeys) (v : Int) (x : List Char) :
    (m.put key v).get x = if x = key then some v else m.get x := by
  by_cases hx : x ∈ fieldKeys
  · obtain rfl | rfl | rfl | rfl := mem_fieldKeys.1 hx <;> simp [FieldMap.put, FieldMap.get, eq_comm]
  · rw [FieldMap.get_of_notMem _ hx, FieldMap.get_of_notMem _ hx, if_neg fun h : x = key => hx (h ▸ hkey)]

@[simp] theorem emptyMap_get (key : List Char) : emptyMap.get key = none := by
  simp only [FieldMap.get, emptyMap, ite_self]

theorem FieldMap.ext_get {m m' : FieldMap} (h : ∀ key, m.get key = m'.get key) : m = m' := by
  obtain ⟨a, b, c, d⟩ := m
  obtain ⟨a', b', c', d'⟩ := m'
  rw [FieldMap.mk.injEq]
  exact ⟨h ['A'], h ['B'], h ['C'], h ['D']⟩

/-- A key is added when it is one of the four and has no value yet. -/
theorem addKey_eq_some_iff {m m' : FieldMap} {key : List Char} {v : Int} :
    addKey m key v = some m' ↔ key ∈ fieldKeys ∧ m.get key = none ∧ m.put key v = m' := by
  by_cases hkey : key ∈ fieldKeys
  · simp only [hkey, true_and]
    obtain rfl | rfl | rfl | rfl := mem_fieldKeys.1 hkey <;>
      simp [addKey, FieldMap.get, FieldMap.put]
  · simp only [hkey, false_and, iff_false]
    simp only [mem_fieldKeys, not_or] at hkey
    obtain ⟨hA, hB, hC, hD⟩ := hkey
    simp only [addKey, hA, hB, hC, hD, if_false, reduceCtorEq, not_false_eq_true]

/-! ## The entry of a token -/

/-- The trimmed key of a token that has an `=`. -/
def tokenKey (t : List Char) : Option (List Char) := (splitEquals t).map fun p => trim p.1

/-- The trimmed key and the value of a token whose value is an integer literal. -/
def tokenEntry (t : List Char) : Option (List Char × Int) :=
  (splitEquals t).bind fun p => (parseInt (trim p.2)).map fun v => (trim p.1, v)

theorem tokenEntry_eq_some_iff {t key : List Char} {v : Int} :
    tokenEntry t = some (key, v) ↔
      ∃ k value, splitEquals t = some (k, value) ∧ trim k = key ∧ parseInt (trim value) = some v := by
  cases h : splitEquals t with
  | none => simp [tokenEntry, h]
  | some p => cases hv : parseInt (trim p.2) <;> simp [tokenEntry, h, hv, Prod.ext_iff, eq_comm]

theorem tokenKey_of_tokenEntry {t key : List Char} {v : Int} (h : tokenEntry t = some (key, v)) : tokenKey t = some key := by
  obtain ⟨k, value, hsplit, rfl, -⟩ := tokenEntry_eq_some_iff.1 h
  rw [tokenKey, hsplit, Option.map_some]

theorem addToken_eq (m : FieldMap) (t : List Char) : addToken m t = (tokenEntry t).bind fun e => addKey m e.1 e.2 := by
  cases h : splitEquals t with
  | none => simp [addToken, tokenEntry, h]
  | some p => cases hv : parseInt (trim p.2) <;> simp [addToken, tokenEntry, h, hv]

theorem addToken_eq_some_iff {m m' : FieldMap} {t : List Char} :
    addToken m t = some m' ↔
      ∃ key v, tokenEntry t = some (key, v) ∧ key ∈ fieldKeys ∧ m.get key = none ∧ m.put key v = m' := by
  simp only [addToken_eq, Option.bind_eq_some_iff, Prod.exists, addKey_eq_some_iff]

theorem addTokens_cons_eq_some_iff {m m' : FieldMap} {t : List Char} {ts : List (List Char)} :
    addTokens m (t :: ts) = some m' ↔ ∃ m1, addToken m t = some m1 ∧ addTokens m1 ts = some m' := by
  cases h : addToken m t <;> simp [addTokens, h]

/-! ## Adding all tokens of a line -/

/-- Two tokens that both have a key have different ones. -/
def KeysDiffer (x y : List Char) : Prop := ∀ key, tokenKey x = some key → tokenKey y ≠ some key

/-- Each token has an entry under one of the four keys that is free in the map and is no other token's key. -/
structure TokensFit (m : FieldMap) (ts : List (List Char)) : Prop where
  entry : ∀ t ∈ ts, ∃ key v, tokenEntry t = some (key, v) ∧ key ∈ fieldKeys ∧ m.get key = none
  keysDiffer : ts.Pairwise KeysDiffer

theorem tokensFit_nil (m : FieldMap) : TokensFit m [] := ⟨fun _ h => absurd h List.not_mem_nil, List.Pairwise.nil⟩

theorem tokensFit_cons_iff {m : FieldMap} {t : List Char} {ts : List (List Char)} :
    TokensFit m (t :: ts) ↔ ∃ m1, addToken m t = some m1 ∧ TokensFit m1 ts := by
  constructor
  · rintro ⟨hentry, hdiffer⟩
    obtain ⟨⟨key, v, ht, hkey, hfree⟩, hts⟩ := List.forall_mem_cons.1 hentry
    obtain ⟨hhead, htail⟩ := List.pairwise_cons.1 hdiffer
    refine ⟨_, addToken_eq_some_iff.2 ⟨key, v, ht, hkey, hfree, rfl⟩, fun x hx => ?_, htail⟩
    obtain ⟨key', v', hx', hkey', hfree'⟩ := hts x hx
    have hne : key' ≠ key := fun h => hhead x hx key (tokenKey_of_tokenEntry ht) (h ▸ tokenKey_of_tokenEntry hx')
    exact ⟨key', v', hx', hkey', by rw [FieldMap.get_put m hkey, if_neg hne, hfree']⟩
  · rintro ⟨m1, hadd, hts, htail⟩
    obtain ⟨key, v, ht, hkey, hfree, rfl⟩ := addToken_eq_some_iff.1 hadd
    have hrest : ∀ x ∈ ts, ∃ key' v', tokenEntry x = some (key', v') ∧ key' ∈ fieldKeys ∧ m.get key' = none ∧ key' ≠ key := by
      intro x hx
      obtain ⟨key', v', hx', hkey', hfree'⟩ := hts x hx
      rw [FieldMap.get_put m hkey] at hfree'
      split at hfree'
      · cases hfree'
      · next hne => exact ⟨key', v', hx', hkey', hfree', hne⟩
    refine ⟨List.forall_mem_cons.2 ⟨⟨key, v, ht, hkey, hfree⟩, fun x hx => ?_⟩,
      List.pairwise_cons.2 ⟨fun x hx k hk hk' => ?_, htail⟩⟩
    · obtain ⟨key', v', hx', hkey', hfree', -⟩ := hrest x hx
      exact ⟨key', v', hx', hkey', hfree'⟩
    · obtain ⟨key', v', hx', -, -, hne⟩ := hrest x hx
      rw [tokenKey_of_tokenEntry ht, Option.some.injEq] at hk
      rw [tokenKey_of_tokenEntry hx', Option.some.injEq] at hk'
      exact hne (hk'.trans hk.symm)

theorem exists_addTokens_iff {m : FieldMap} {ts : List (List Char)} :
    (∃ m', addTokens m ts = some m') ↔ TokensFit m ts := by
  induction ts generalizing m with
  | nil => exact iff_of_true ⟨m, rfl⟩ (tokensFit_nil m)
  | cons t ts ih =>
    simp only [tokensFit_cons_iff, addTokens_cons_eq_some_iff, ← ih]
    exact ⟨fun ⟨m', m1, h, h'⟩ => ⟨m1, h, m', h'⟩, fun ⟨m1, h, m', h'⟩ => ⟨m', m1, h, h'⟩⟩

/-- After the tokens the map holds what it held before and the tokens' entries. -/
theorem get_of_addTokens {m m' : FieldMap} {ts : List (List Char)} (h : addTokens m ts = some m') (key : List Char) (v : Int) :
    m'.get key = some v ↔ m.get key = some v ∨ ∃ t ∈ ts, tokenEntry t = some (key, v) := by
  induction ts generalizing m with
  | nil => cases h; simp
  | cons t ts ih =>
    obtain ⟨m1, hadd, h⟩ := addTokens_cons_eq_some_iff.1 h
    obtain ⟨key', v', ht, hkey', hfree, rfl⟩ := addToken_eq_some_iff.1 hadd
    rw [ih h, FieldMap.get_put m hkey', List.exists_mem_cons_iff, ← or_assoc, ht]
    by_cases hk : key = key'
    · simp [hk, hfree]
    · simp [hk, Ne.symm hk]

/-! ## Lines -/

theorem parseLine_eq (l : Line) : parseLine l = (addTokens emptyMap (splitCommas l)).bind requireKeys := by
  cases h : addTokens emptyMap (splitCommas l) <;> simp [parseLine, h]

theorem requireKeys_eq_some_iff {m : FieldMap} {p : ParsedLine} :
    requireKeys m = some p ↔ m = { a := some p.a, b := some p.b, c := some p.c, d := p.d } := by
  obtain ⟨a, b, c, d⟩ := m
  obtain ⟨pa, pb, pc, pd⟩ := p
  cases a <;> cases b <;> cases c <;> simp [requireKeys]

/-- The map behind a parsed line has the line's fields as its values. -/
theorem get_of_requireKeys {m : FieldMap} {p : ParsedLine} (h : requireKeys m = some p) (name : Char) (v : Int) :
    m.get [name] = some v ↔
      (name = 'A' ∧ v = p.a) ∨ (name = 'B' ∧ v = p.b) ∨ (name = 'C' ∧ v = p.c) ∨ (name = 'D' ∧ p.d = some v) := by
  rw [requireKeys_eq_some_iff.1 h]
  simp only [FieldMap.get, List.cons.injEq, and_true]
  split_ifs with hA hB hC hD
  · simp [hA, eq_comm]
  · simp [hB, eq_comm]
  · simp [hC, eq_comm]
  · simp [hD]
  · simp [hA, hB, hC, hD]

theorem requireKeys_eq_none_iff {m : FieldMap} :
    requireKeys m = none ↔ ∃ name ∈ [['A'], ['B'], ['C']], m.get name = none := by
  obtain ⟨a, b, c, d⟩ := m
  cases a <;> cases b <;> cases c <;> simp [requireKeys, FieldMap.get]

/-- Settles O42: the map behind a parsed line holds exactly the entries of its tokens. -/
theorem parsedValuesAreTheTokens : Obligations.ParsedValuesAreTheTokens := by
  intro l p h name v
  rw [parseLine_eq, Option.bind_eq_some_iff] at h
  obtain ⟨m, hadd, hreq⟩ := h
  have hget := get_of_addTokens hadd [name] v
  simp only [emptyMap_get, reduceCtorEq, false_or, tokenEntry_eq_some_iff] at hget
  exact hget.symm.trans (get_of_requireKeys hreq name v)

theorem KeysDiffer.symm {x y : List Char} (h : KeysDiffer x y) : KeysDiffer y x := fun key hy hx => h key hx hy

theorem TokensFit.perm {m : FieldMap} {ts ts' : List (List Char)} (hp : ts.Perm ts') (h : TokensFit m ts) : TokensFit m ts' where
  entry t ht := h.entry t (hp.mem_iff.2 ht)
  keysDiffer := (hp.pairwise_iff KeysDiffer.symm).1 h.keysDiffer

theorem addTokens_perm {m : FieldMap} {ts ts' : List (List Char)} (hp : ts.Perm ts') : addTokens m ts = addTokens m ts' := by
  have key : ∀ {ts ts' : List (List Char)}, ts.Perm ts' → ∀ m', addTokens m ts = some m' → addTokens m ts' = some m' := by
    intro ts ts' hp m' h
    obtain ⟨m'', h'⟩ := exists_addTokens_iff.2 ((exists_addTokens_iff.1 ⟨m', h⟩).perm hp)
    rw [h', Option.some.injEq]
    refine FieldMap.ext_get fun k => Option.ext fun v => ?_
    simp only [get_of_addTokens h, get_of_addTokens h', hp.mem_iff]
  exact Option.ext fun m' => ⟨key hp m', key hp.symm m'⟩

/-- Settles O43: whether the tokens fit, and which entries the map then holds, is the same for every order. -/
theorem keyOrderDoesNotMatter : Obligations.KeyOrderDoesNotMatter := by
  intro l1 l2 hp
  rw [parseLine_eq, parseLine_eq, addTokens_perm hp]

/-! ## The five ways to fail -/

theorem pair_sublist_iff {α : Type} {x y : α} {ts : List α} :
    [x, y].Sublist ts ↔ ∃ p q r, ts = p ++ x :: q ++ y :: r := by
  constructor
  · intro h
    obtain ⟨front, back, rfl, hx, hy⟩ := List.cons_sublist_iff.1 h
    obtain ⟨p, q, rfl⟩ := List.append_of_mem hx
    obtain ⟨q', r, rfl⟩ := List.append_of_mem (List.singleton_sublist.1 hy)
    exact ⟨p, q ++ q', r, by simp⟩
  · rintro ⟨p, q, r, rfl⟩
    exact List.cons_sublist_iff.2 ⟨p ++ x :: q, y :: r, rfl, by simp, by simp⟩

theorem not_keysDiffer_iff {x y : List Char} :
    ¬ KeysDiffer x y ↔
      ∃ kx vx ky vy, splitEquals x = some (kx, vx) ∧ splitEquals y = some (ky, vy) ∧ trim kx = trim ky := by
  simp only [KeysDiffer, tokenKey, Option.map_eq_some_iff, Prod.exists, not_forall, not_not]
  constructor
  · rintro ⟨key, ⟨kx, vx, hx, hkx⟩, ky, vy, hy, hky⟩
    exact ⟨kx, vx, ky, vy, hx, hy, hkx.trans hky.symm⟩
  · rintro ⟨kx, vx, ky, vy, hx, hy, hk⟩
    exact ⟨trim kx, ⟨kx, vx, hx, rfl⟩, ky, vy, hy, hk.symm⟩

/-- A key occurs twice when two tokens of the line, one before the other, share it. -/
theorem not_pairwise_keysDiffer_iff {ts : List (List Char)} :
    ¬ ts.Pairwise KeysDiffer ↔
      ∃ p x q y r kx vx ky vy, ts = p ++ x :: q ++ y :: r ∧ splitEquals x = some (kx, vx) ∧
        splitEquals y = some (ky, vy) ∧ trim kx = trim ky := by
  rw [List.pairwise_iff_forall_sublist]
  simp only [not_forall, exists_prop, pair_sublist_iff, not_keysDiffer_iff]
  constructor
  · rintro ⟨x, y, ⟨p, q, r, hts⟩, kx, vx, ky, vy, h⟩
    exact ⟨p, x, q, y, r, kx, vx, ky, vy, hts, h⟩
  · rintro ⟨p, x, q, y, r, kx, vx, ky, vy, hts, h⟩
    exact ⟨x, y, ⟨p, q, r, hts⟩, kx, vx, ky, vy, h⟩

/-- How a single token is bad: no `=`, no integer literal as its value, or none of the four keys. -/
theorem not_hasEntry_iff {t : List Char} :
    (¬ ∃ key v, tokenEntry t = some (key, v) ∧ key ∈ fieldKeys) ↔
      splitEquals t = none ∨ (∃ key v, splitEquals t = some (key, v) ∧ parseInt (trim v) = none) ∨
      (∃ key v, splitEquals t = some (key, v) ∧ trim key ∉ fieldKeys) := by
  cases h : splitEquals t with
  | none => simp [tokenEntry, h]
  | some p =>
    obtain ⟨key, value⟩ := p
    cases hv : parseInt (trim value) <;> simp [tokenEntry, h, hv]

theorem tokensFit_emptyMap_iff {ts : List (List Char)} :
    TokensFit emptyMap ts ↔
      (∀ t ∈ ts, ∃ key v, tokenEntry t = some (key, v) ∧ key ∈ fieldKeys) ∧ ts.Pairwise KeysDiffer := by
  refine ⟨fun ⟨hentry, hdiffer⟩ => ⟨?_, hdiffer⟩, fun ⟨hentry, hdiffer⟩ => ⟨?_, hdiffer⟩⟩
  · simpa only [emptyMap_get, and_true] using hentry
  · simpa only [emptyMap_get, and_true] using hentry

/-- The first four causes of R50: the tokens do not fit. -/
theorem not_tokensFit_iff {ts : List (List Char)} :
    ¬ TokensFit emptyMap ts ↔
      (∃ t ∈ ts, splitEquals t = none) ∨
      (∃ p x q y r kx vx ky vy, ts = p ++ x :: q ++ y :: r ∧ splitEquals x = some (kx, vx) ∧
        splitEquals y = some (ky, vy) ∧ trim kx = trim ky) ∨
      (∃ t ∈ ts, ∃ key v, splitEquals t = some (key, v) ∧ parseInt (trim v) = none) ∨
      (∃ t ∈ ts, ∃ key v, splitEquals t = some (key, v) ∧ trim key ∉ fieldKeys) := by
  rw [tokensFit_emptyMap_iff, not_and_or, not_pairwise_keysDiffer_iff, or_comm, or_left_comm]
  refine or_congr_right ?_
  simp only [not_forall, exists_prop, not_hasEntry_iff, and_or_left, exists_or]

/-- A key has no value after the tokens when it is the key of no token. -/
theorem get_eq_none_iff {m : FieldMap} {ts : List (List Char)} (h : addTokens emptyMap ts = some m) (name : List Char) :
    m.get name = none ↔ ∀ t ∈ ts, ∀ key v, splitEquals t = some (key, v) → trim key ≠ name := by
  have hget := get_of_addTokens h name
  simp only [emptyMap_get, reduceCtorEq, false_or] at hget
  rw [Option.eq_none_iff_forall_ne_some]
  constructor
  · rintro hnone t ht key v hsplit rfl
    obtain ⟨key', v', ht', -⟩ := (exists_addTokens_iff.1 ⟨m, h⟩).entry t ht
    have hkey : key' = trim key := by
      simpa [tokenKey, hsplit] using (tokenKey_of_tokenEntry ht').symm
    exact hnone v' ((hget v').2 ⟨t, ht, hkey ▸ ht'⟩)
  · intro hkeys v hv
    obtain ⟨t, ht, hentry⟩ := (hget v).1 hv
    obtain ⟨k, value, hsplit, hk, -⟩ := tokenEntry_eq_some_iff.1 hentry
    exact hkeys t ht k value hsplit hk

theorem parseLine_eq_none_iff (l : Line) :
    parseLine l = none ↔ ¬ TokensFit emptyMap (splitCommas l) ∨
      ∃ name ∈ [['A'], ['B'], ['C']], ∀ t ∈ splitCommas l, ∀ key v, splitEquals t = some (key, v) → trim key ≠ name := by
  rw [parseLine_eq, ← exists_addTokens_iff]
  cases hadd : addTokens emptyMap (splitCommas l) with
  | none => exact iff_of_true rfl (.inl (by simp))
  | some m =>
    rw [Option.bind_some, requireKeys_eq_none_iff]
    simp only [get_eq_none_iff hadd, Option.some.injEq, exists_eq', not_true_eq_false, false_or]

/-- Settles O41: a line fails when its tokens do not fit or a required key is the key of no token. -/
theorem parseFailsInExactlyTheseCases : Obligations.ParseFailsInExactlyTheseCases := by
  intro l
  rw [parseLine_eq_none_iff, not_tokensFit_iff]
  simp only [or_assoc, fieldKeys]

/-! ## Integer literals (R48, D16) -/

/-- The character of a decimal digit. -/
def decimalChar (x : Nat) : Char := Char.ofNat (48 + x)

theorem decimalChar_toNat {x : Nat} (hx : x < 10) : (decimalChar x).toNat = 48 + x := by
  interval_cases x <;> rfl

theorem isDigit_decimalChar {x : Nat} (hx : x < 10) : isDigit (decimalChar x) = true := by
  rw [isDigit, decimalChar_toNat hx, Bool.and_eq_true, decide_eq_true_iff, decide_eq_true_iff]
  omega

theorem exists_decimalChar_of_isDigit {ch : Char} (h : isDigit ch = true) : ∃ x < 10, ch = decimalChar x := by
  rw [isDigit, Bool.and_eq_true, decide_eq_true_iff, decide_eq_true_iff] at h
  refine ⟨ch.toNat - 48, by omega, ?_⟩
  rw [decimalChar, Nat.add_sub_cancel' h.1, Char.ofNat_toNat]

theorem digitsFrom_decimalChars {ds : List Nat} (h : ∀ x ∈ ds, x < 10) (acc : Nat) :
    digitsFrom acc (ds.map decimalChar) = some (ds.foldl (fun acc x => 10 * acc + x) acc) := by
  induction ds generalizing acc with
  | nil => rfl
  | cons x ds ih =>
    obtain ⟨hx, h⟩ := List.forall_mem_cons.1 h
    rw [List.map_cons, digitsFrom, if_pos (isDigit_decimalChar hx), decimalChar_toNat hx, Nat.add_sub_cancel_left, ih h,
      List.foldl_cons]

theorem exists_digits_of_digitsFrom {acc n : Nat} {cs : List Char} (h : digitsFrom acc cs = some n) :
    ∃ ds : List Nat, (∀ x ∈ ds, x < 10) ∧ cs = ds.map decimalChar := by
  induction cs generalizing acc with
  | nil => exact ⟨[], by simp, rfl⟩
  | cons ch cs ih =>
    rw [digitsFrom] at h
    split at h
    · next hdigit =>
      obtain ⟨x, hx, rfl⟩ := exists_decimalChar_of_isDigit hdigit
      obtain ⟨ds, hds, rfl⟩ := ih h
      exact ⟨x :: ds, List.forall_mem_cons.2 ⟨hx, hds⟩, rfl⟩
    · cases h

theorem parseNat_of_ne_nil {cs : List Char} (h : cs ≠ []) : parseNat cs = digitsFrom 0 cs := by
  cases cs with
  | nil => exact absurd rfl h
  | cons => rfl

theorem digits_of_parseNat {cs : List Char} {n : Nat} (h : parseNat cs = some n) :
    ∃ ds : List Nat, ds ≠ [] ∧ (∀ x ∈ ds, x < 10) ∧ cs = ds.map decimalChar := by
  have hne : cs ≠ [] := by rintro rfl; cases h
  rw [parseNat_of_ne_nil hne] at h
  obtain ⟨ds, hds, rfl⟩ := exists_digits_of_digitsFrom h
  exact ⟨ds, fun hnil => hne (by rw [hnil, List.map_nil]), hds, rfl⟩

theorem parseInt_plus (cs : List Char) : parseInt ('+' :: cs) = (parseNat cs).map fun n : Nat => (n : Int) := rfl

theorem parseInt_minus (cs : List Char) : parseInt ('-' :: cs) = (parseNat cs).map fun n : Nat => -(n : Int) := rfl

theorem parseInt_no_sign {ch : Char} (cs : List Char) (hplus : ch ≠ '+') (hminus : ch ≠ '-') :
    parseInt (ch :: cs) = (parseNat (ch :: cs)).map fun n : Nat => (n : Int) := by
  rw [parseInt, if_neg hplus, if_neg hminus]

/-- A digit is no sign: its code is at least 48. -/
theorem decimalChar_ne {x : Nat} (hx : x < 10) {ch : Char} (hch : ch.toNat < 48) : decimalChar x ≠ ch := by
  rintro rfl
  rw [decimalChar_toNat hx] at hch
  omega

theorem parseInt_decimalChars {ds : List Nat} (hne : ds ≠ []) (hds : ∀ x ∈ ds, x < 10) :
    parseInt (ds.map decimalChar) = (parseNat (ds.map decimalChar)).map fun n : Nat => (n : Int) := by
  cases ds with
  | nil => exact absurd rfl hne
  | cons x ds =>
    have hx := hds x List.mem_cons_self
    exact parseInt_no_sign _ (decimalChar_ne hx (by decide)) (decimalChar_ne hx (by decide))

theorem sign_and_digits_of_parseInt {cs : List Char} {v : Int} (h : parseInt cs = some v) :
    ∃ sg ∈ [[], ['+'], ['-']], ∃ text n, cs = sg ++ text ∧ parseNat text = some n := by
  cases cs with
  | nil => cases h
  | cons ch cs =>
    by_cases hplus : ch = '+'
    · rw [hplus, parseInt_plus, Option.map_eq_some_iff] at h
      obtain ⟨n, hn, -⟩ := h
      exact ⟨['+'], by simp, cs, n, by rw [hplus]; rfl, hn⟩
    by_cases hminus : ch = '-'
    · rw [hminus, parseInt_minus, Option.map_eq_some_iff] at h
      obtain ⟨n, hn, -⟩ := h
      exact ⟨['-'], by simp, cs, n, by rw [hminus]; rfl, hn⟩
    rw [parseInt_no_sign cs hplus hminus, Option.map_eq_some_iff] at h
    obtain ⟨n, hn, -⟩ := h
    exact ⟨[], by simp, ch :: cs, n, rfl, hn⟩

/-- Settles O44: the digits of a literal are read one by one, and what was read is digits behind a sign or none. -/
theorem integerLiteralGrammar : Obligations.IntegerLiteralGrammar := by
  refine ⟨fun ds hne hds => ?_, fun cs v h => ?_⟩
  · have hnat : parseNat (ds.map decimalChar) = some (ds.foldl (fun acc x => 10 * acc + x) 0) := by
      rw [parseNat_of_ne_nil (by simpa using hne), digitsFrom_decimalChars hds]
    exact ⟨(parseInt_decimalChars hne hds).trans (congrArg _ hnat), (parseInt_plus _).trans (congrArg _ hnat),
      (parseInt_minus _).trans (congrArg _ hnat)⟩
  · obtain ⟨sg, hsg, text, n, rfl, hnat⟩ := sign_and_digits_of_parseInt h
    obtain ⟨ds, hne, hds, rfl⟩ := digits_of_parseNat hnat
    exact ⟨ds, hne, hds, sg, hsg, rfl⟩

end Sys2Proof.Machine
